-- ==== Sys2Proof/Word.lean ====
section
/-!
DEFINITION. The data units of the USB-MIDI SysEx codec: the byte and the nibble
(00_scope.md R7), the raw 4-byte packet (30_encoding.md R45) and the MIDI event a
packet decodes to (10_state.md R11).
-/
namespace Sys2Proof

/-- A byte (R7). -/
abbrev Byte := BitVec 8

/-- A nibble: a cable index or a code index (R7, R45). -/
abbrev Nibble := BitVec 4

/-- A raw packet: exactly four bytes, `b0` the one the transport delivers or
accepts first (R7, R32, R45). A short or long packet is no value of this type. -/
structure Packet where
  b0 : Byte
  b1 : Byte
  b2 : Byte
  b3 : Byte
  deriving DecidableEq, Repr

/-- A MIDI event `(cable, cin, d0, d1, d2)` (R11): a value, never state. -/
structure Event where
  cable : Nibble
  cin : Nibble
  d0 : Byte
  d1 : Byte
  d2 : Byte
  deriving DecidableEq, Repr

end Sys2Proof
end

