-- ==== Sys2Proof/Config.lean ====
section
/-!
DEFINITION. The implementation parameters of 00_scope.md R6 that the spec leaves OPEN as
model arguments, and the free values (bytes the spec leaves unspecified). The parameters it
gives a value (code indices, markers, padding) stand in Sys2Proof/Decode.lean.
-/
namespace Sys2Proof

/-- The model arguments of R6: "all fixed at build/initialization time, not
runtime-mutable". The spec gives none of them a value (92 D7, D20), so a state
carries them and every claim is made for all of them. Log 2. -/
structure Config where
  /-- `CAP`: capacity of the reassembly buffer in bytes. -/
  cap : Nat
  /-- `TIMEOUT_BUDGET`: the consecutive not-ready polls after which a reassembly
  times out; `Config.wf` says it is at least 1. -/
  timeoutBudget : Nat
  /-- `IDENT`: the identifier byte (dispatcher only). -/
  ident : Byte
  /-- `CMD_MAX`: the most entries the command table holds (dispatcher only). -/
  cmdMax : Nat
  deriving DecidableEq, Repr

/-- The OPEN `CAP` of the device behind `State.reset`: nothing is known of it. -/
opaque Config.openCap : Nat

/-- One less than the OPEN `TIMEOUT_BUDGET` of the device behind `State.reset`:
nothing is known of it. -/
opaque Config.openBudgetLessOne : Nat

/-- The OPEN `IDENT` of the device behind `State.reset`: nothing is known of it. -/
opaque Config.openIdent : Byte

/-- The OPEN `CMD_MAX` of the device behind `State.reset`: nothing is known of it. -/
opaque Config.openCmdMax : Nat

/-- The configuration of the device behind `State.reset`: all that is known of it is
R6's constraint that the timeout budget is at least 1. -/
def Config.thisDevice : Config :=
  { cap := Config.openCap
    timeoutBudget := Config.openBudgetLessOne + 1
    ident := Config.openIdent
    cmdMax := Config.openCmdMax }

/-- Free value: what `rx_buf[i]` holds after the `k`-th RESET where nothing has been
written since (R28: "any byte value; a model draws it freely"; U6). Log 3. -/
opaque Config.freeRxByte : Nat → Nat → Byte

/-- Free value: what `TXPAY[i]` holds where the requester's writes are not listed
(R142: "any bytes"). Log 4. -/
opaque Config.freePayByte : Nat → Byte

end Sys2Proof
end

