-- ==== Sys2Proof/Syntax.lean ====
section
/-!
DEFINITION. The instructions: one constructor per row of opcode_table.json, that is
one per packet kind (30_encoding.md R48, R52, R55). The operands are the other fields
of a packet: the cable index and the three data bytes (R45).
-/
namespace Sys2Proof

/-- A packet kind with its operands. `SC`, `E1`, `E2`, `E3` are the SysEx kinds (R48),
`NS0` .. `NSF` the twelve others (R52). -/
inductive Instr where
  | sc  (cable : Nibble) (d0 d1 d2 : Byte)
  | e1  (cable : Nibble) (d0 d1 d2 : Byte)
  | e2  (cable : Nibble) (d0 d1 d2 : Byte)
  | e3  (cable : Nibble) (d0 d1 d2 : Byte)
  | ns0 (cable : Nibble) (d0 d1 d2 : Byte)
  | ns1 (cable : Nibble) (d0 d1 d2 : Byte)
  | ns2 (cable : Nibble) (d0 d1 d2 : Byte)
  | ns3 (cable : Nibble) (d0 d1 d2 : Byte)
  | ns8 (cable : Nibble) (d0 d1 d2 : Byte)
  | ns9 (cable : Nibble) (d0 d1 d2 : Byte)
  | nsA (cable : Nibble) (d0 d1 d2 : Byte)
  | nsB (cable : Nibble) (d0 d1 d2 : Byte)
  | nsC (cable : Nibble) (d0 d1 d2 : Byte)
  | nsD (cable : Nibble) (d0 d1 d2 : Byte)
  | nsE (cable : Nibble) (d0 d1 d2 : Byte)
  | nsF (cable : Nibble) (d0 d1 d2 : Byte)
  deriving DecidableEq, Repr

end Sys2Proof
end

