-- ==== Sys2Proof/WellFormed.lean ====
section
/-!
DEFINITION. What is well formed: the configuration constraint of 00_scope.md R6 (and
U16), and the widths of ENCODE's arguments where they come as numbers (U5). An
instruction's operands are bit vectors, and the spec forbids no value of any of them
(30_encoding.md R52, 40_packet_codec.md R60), so every instruction is well formed.
-/
namespace Sys2Proof

/-- R6: `TIMEOUT_BUDGET >= 1`; a budget of 0 is refused (U16). Every `CAP >= 0`, every
`IDENT` and every `CMD_MAX` is legal (R6, R102). -/
def Config.wf (c : Config) : Bool := decide (1 ≤ c.timeoutBudget)

/-- ENCODE's arguments as plain numbers, before their widths are checked (R61). -/
structure EncodeArgs where
  cin : Nat
  cable : Nat
  b0 : Nat
  b1 : Nat
  b2 : Nat
  deriving DecidableEq, Repr

/-- R61 and U5: `cin` and `cable` are 4-bit, the data bytes 8-bit; "a wider value is
ill-typed". -/
def EncodeArgs.wf (a : EncodeArgs) : Bool :=
  decide (a.cin < 16) && decide (a.cable < 16) &&
    decide (a.b0 < 256) && decide (a.b1 < 256) && decide (a.b2 < 256)

/-- Every instruction is well formed: R52 names no illegal and no reserved packet, and
the operand types admit exactly the values the packet format has room for. -/
def Instr.wf : Instr → Bool
  | .sc _ _ _ _ => true
  | .e1 _ _ _ _ => true
  | .e2 _ _ _ _ => true
  | .e3 _ _ _ _ => true
  | .ns0 _ _ _ _ => true
  | .ns1 _ _ _ _ => true
  | .ns2 _ _ _ _ => true
  | .ns3 _ _ _ _ => true
  | .ns8 _ _ _ _ => true
  | .ns9 _ _ _ _ => true
  | .nsA _ _ _ _ => true
  | .nsB _ _ _ _ => true
  | .nsC _ _ _ _ => true
  | .nsD _ _ _ _ => true
  | .nsE _ _ _ _ => true
  | .nsF _ _ _ _ => true

end Sys2Proof
end

