-- ==== Sys2Proof/Decode.lean ====
section
/-!
DEFINITION. The Packet Codec and the code-index map: DECODE and ENCODE
(40_packet_codec.md R60, R61), the classification of an event by its code index
(30_encoding.md R48, R52, R55; 41_sysex_reassembler.md R70), the encoder from
instructions to packets, and the forms over byte lists and over the table's word. First the
framing constants and code indices of 00_scope.md R6.
-/
namespace Sys2Proof

/-- `SYSEX_START` (R6, R49). -/
def Config.sysexStart : Byte := 0xF0#8

/-- `SYSEX_END` (R6, R49). -/
def Config.sysexEnd : Byte := 0xF7#8

/-- `CIN_SC`, "SysEx start-or-continue" (R6, R48). PRESUMED by the spec itself:
the number is from general knowledge (92 D1). Log 1. -/
def Config.cinSC : Nibble := 0x4#4

/-- `CIN_E1`, "end, 1 byte" (R6, R48). PRESUMED, log 1. -/
def Config.cinE1 : Nibble := 0x5#4

/-- `CIN_E2`, "end, 2 bytes" (R6, R48). PRESUMED, log 1. -/
def Config.cinE2 : Nibble := 0x6#4

/-- `CIN_E3`, "end, 3 bytes" (R6, R48). PRESUMED, log 1. -/
def Config.cinE3 : Nibble := 0x7#4

/-- `PAD`: what the Fragmenter puts in unused data slots (R6, R51, 92 D13). Log 1. -/
def Config.pad : Byte := 0x00#8

/-- The low nibble of a header byte: `p[0][3:0]` (R45, R47). -/
def lowNibble (b : Byte) : Nibble := b.extractLsb' 0 4

/-- The high nibble of a header byte: `p[0][7:4]` (R45, R47). -/
def highNibble (b : Byte) : Nibble := b.extractLsb' 4 4

/-- DECODE (R60): total, "no failure mode". -/
def decodeEvent (p : Packet) : Event :=
  { cable := highNibble p.b0
    cin := lowNibble p.b0
    d0 := p.b1
    d1 := p.b2
    d2 := p.b3 }

/-- ENCODE (R61), its operands in the source's order. -/
def encodePacket (cin cable : Nibble) (b0 b1 b2 : Byte) : Packet :=
  { b0 := cable ++ cin, b1 := b0, b2 := b1, b3 := b2 }

/-- ENCODE of plain numbers: refused where an argument is too wide (U5). -/
def encodeArgs? (a : EncodeArgs) : Option Packet :=
  if a.wf then
    some (encodePacket (BitVec.ofNat 4 a.cin) (BitVec.ofNat 4 a.cable)
      (BitVec.ofNat 8 a.b0) (BitVec.ofNat 8 a.b1) (BitVec.ofNat 8 a.b2))
  else none

/-- The non-SysEx kind of an event none of the four SysEx codes matches (R52, R55).
The last branch is 0xF alone: `classify_cin` proves that no other code reaches it. -/
def classifyNonSysEx (ev : Event) : Instr :=
  if ev.cin = 0x0#4 then .ns0 ev.cable ev.d0 ev.d1 ev.d2
  else if ev.cin = 0x1#4 then .ns1 ev.cable ev.d0 ev.d1 ev.d2
  else if ev.cin = 0x2#4 then .ns2 ev.cable ev.d0 ev.d1 ev.d2
  else if ev.cin = 0x3#4 then .ns3 ev.cable ev.d0 ev.d1 ev.d2
  else if ev.cin = 0x8#4 then .ns8 ev.cable ev.d0 ev.d1 ev.d2
  else if ev.cin = 0x9#4 then .ns9 ev.cable ev.d0 ev.d1 ev.d2
  else if ev.cin = 0xA#4 then .nsA ev.cable ev.d0 ev.d1 ev.d2
  else if ev.cin = 0xB#4 then .nsB ev.cable ev.d0 ev.d1 ev.d2
  else if ev.cin = 0xC#4 then .nsC ev.cable ev.d0 ev.d1 ev.d2
  else if ev.cin = 0xD#4 then .nsD ev.cable ev.d0 ev.d1 ev.d2
  else if ev.cin = 0xE#4 then .nsE ev.cable ev.d0 ev.d1 ev.d2
  else .nsF ev.cable ev.d0 ev.d1 ev.d2

/-- The packet kind of an event, by its code index, in the order of R70's dispatch. -/
def classify (ev : Event) : Instr :=
  if ev.cin = Config.cinSC then .sc ev.cable ev.d0 ev.d1 ev.d2
  else if ev.cin = Config.cinE3 then .e3 ev.cable ev.d0 ev.d1 ev.d2
  else if ev.cin = Config.cinE2 then .e2 ev.cable ev.d0 ev.d1 ev.d2
  else if ev.cin = Config.cinE1 then .e1 ev.cable ev.d0 ev.d1 ev.d2
  else classifyNonSysEx ev

/-- The instruction a packet holds: DECODE, then the code index selects (R63, R70). -/
def decode (p : Packet) : Instr := classify (decodeEvent p)

/-- Why a list of bytes holds no packet. -/
inductive DecodeError where
  /-- R32: the transport moves exactly four bytes; "a short, long or split packet
  cannot be expressed at this interface". Safe: nothing runs. -/
  | notFourBytes (length : Nat)
  deriving DecidableEq, Repr

/-- The decoder over any list of bytes: total, and refused by name unless there are
exactly four (R32). -/
def decodeBytes (bs : List Byte) : Except DecodeError Instr :=
  match bs with
  | [b0, b1, b2, b3] => .ok (decode { b0 := b0, b1 := b1, b2 := b2, b3 := b3 })
  | _ => .error (.notFourBytes bs.length)

/-- The event an instruction is (R11): its code index by the table of R48 and R52, and
its operands. -/
def Instr.event : Instr → Event
  | .sc c d0 d1 d2 => ⟨c, Config.cinSC, d0, d1, d2⟩
  | .e1 c d0 d1 d2 => ⟨c, Config.cinE1, d0, d1, d2⟩
  | .e2 c d0 d1 d2 => ⟨c, Config.cinE2, d0, d1, d2⟩
  | .e3 c d0 d1 d2 => ⟨c, Config.cinE3, d0, d1, d2⟩
  | .ns0 c d0 d1 d2 => ⟨c, 0x0#4, d0, d1, d2⟩
  | .ns1 c d0 d1 d2 => ⟨c, 0x1#4, d0, d1, d2⟩
  | .ns2 c d0 d1 d2 => ⟨c, 0x2#4, d0, d1, d2⟩
  | .ns3 c d0 d1 d2 => ⟨c, 0x3#4, d0, d1, d2⟩
  | .ns8 c d0 d1 d2 => ⟨c, 0x8#4, d0, d1, d2⟩
  | .ns9 c d0 d1 d2 => ⟨c, 0x9#4, d0, d1, d2⟩
  | .nsA c d0 d1 d2 => ⟨c, 0xA#4, d0, d1, d2⟩
  | .nsB c d0 d1 d2 => ⟨c, 0xB#4, d0, d1, d2⟩
  | .nsC c d0 d1 d2 => ⟨c, 0xC#4, d0, d1, d2⟩
  | .nsD c d0 d1 d2 => ⟨c, 0xD#4, d0, d1, d2⟩
  | .nsE c d0 d1 d2 => ⟨c, 0xE#4, d0, d1, d2⟩
  | .nsF c d0 d1 d2 => ⟨c, 0xF#4, d0, d1, d2⟩

/-- The packet of an event: ENCODE of its fields (R61). -/
def encodeEvent (ev : Event) : Packet :=
  encodePacket ev.cin ev.cable ev.d0 ev.d1 ev.d2

/-- The packet an instruction is written as (R45, R48, R52). -/
def encode (i : Instr) : Packet := encodeEvent i.event

/-- The four bytes of a packet in the order the transport moves them (R31). -/
def Packet.bytes (p : Packet) : List Byte := [p.b0, p.b1, p.b2, p.b3]

/-- The bytes of an instruction, first byte first. -/
def encodeBytes (i : Instr) : List Byte := (encode i).bytes

/-- The word form of a packet, `W = p[3] ++ p[2] ++ p[1] ++ p[0]` (R46): notation only. -/
def Packet.word (p : Packet) : BitVec 32 := p.b3 ++ p.b2 ++ p.b1 ++ p.b0

/-- The packet whose word form is `w` (R46). -/
def Packet.ofWord (w : BitVec 32) : Packet :=
  { b0 := w.extractLsb' 0 8
    b1 := w.extractLsb' 8 8
    b2 := w.extractLsb' 16 8
    b3 := w.extractLsb' 24 8 }

/-- The packet whose bits, numbered as the opcode table numbers them, are the low
`nbits` bits of `w`, the bits above them zero. -/
def Packet.ofTable (nbits w : Nat) : Packet :=
  Packet.ofWord (BitVec.ofNat 32 (w % 2 ^ nbits))

/-- What this decoder reads from an instruction whose bits, as the opcode table numbers
them, are `w`. -/
def decodeTableWord (nbits w : Nat) : Option Instr :=
  match decodeBytes (Packet.ofTable nbits w).bytes with
  | .ok i => some i
  | .error _ => none

end Sys2Proof
end

