-- ==== Sys2Proof/Machine/Environment.lean ====
section
/-!
DEFINITION. What the environment can do (70_reset_and_hazards.md R142), as plain data: the
transport's answers, the requests, and where both come from without end
(41_sysex_reassembler.md R70, R82; 70_reset_and_hazards.md R143).
-/
namespace Sys2Proof.Machine

/-- The transport's answer to one poll (41_sysex_reassembler.md R70). -/
inductive Answer where
  | packet (p : Packet)
  | notReady
  deriving DecidableEq, Repr

/-- Which memory the payload of the current send is read from: R90 passes it "by
reference", and it "may be the reassembly buffer itself". Log 13. -/
inductive PayRef where
  | own
  | rxBuf
  deriving DecidableEq, Repr

/-- A callback: an opaque reference (R101). The number only tells callbacks apart. Log 12. -/
structure Callback where
  ref : Nat
  deriving DecidableEq, Repr

/-- A request of the environment: the operations of 30_encoding.md R55 that take a step,
and a write of the requester to its own payload memory (R30, R135). Log 5. -/
inductive Request where
  /-- RX_POLL; the answer is the next one of `rxStream` (R70). -/
  | rxPoll
  /-- RX_RELEASE (R79). -/
  | rxRelease
  /-- TX_START (R90). -/
  | txStart (cable : Nibble) (len : Nat) (ref : PayRef)
  /-- TX_STEP (R92). -/
  | txStep
  /-- RESET (R130). -/
  | reset
  /-- REGISTER (R102), outside the block. -/
  | register (code : Byte) (cb : Callback)
  /-- DISPATCH of the result (R100, R103), outside the block. -/
  | dispatch
  /-- The requester writes `TXPAY[i]`, its own memory (R30, R135). -/
  | payWrite (i : Nat) (b : Byte)
  deriving DecidableEq, Repr

/-- Where a sequence without end goes on once its listed items are used up. Log 5. -/
inductive Source (α : Type) where
  /-- These, over and over; nothing at all where there are none. -/
  | repeats (again : List α)
  /-- Free values, of which this many are drawn: any sequence whatever. -/
  | free (drawn : Nat)
  deriving DecidableEq, Repr

/-- The listed items and what comes after them, with an item listed if one is to come. -/
def Source.feed {α : Type} (draw : Nat → List α) (listed : List α) (after : Source α) :
    List α × Source α :=
  match listed, after with
  | x :: xs, after => (x :: xs, after)
  | [], .repeats again => (again, .repeats again)
  | [], .free n => (draw n, .free (n + 1))

end Sys2Proof.Machine

/-- Free value: the transport's `n`-th answer where none is laid down, a packet or
not-ready (R70: "any packet, or `NR`, at every poll, under no law"; U11). Log 5. -/
opaque Sys2Proof.Config.freeAnswer : Nat → Option Sys2Proof.Packet

/-- Free value: the environment's `n`-th request where none is laid down, or none (R142:
"when, and whether at all"). Log 5. -/
opaque Sys2Proof.Config.freeRequest : Nat → Option Sys2Proof.Machine.Request

namespace Sys2Proof.Machine

/-- The transport's `n`-th free answer. -/
def drawAnswer (n : Nat) : List Answer :=
  match Config.freeAnswer n with
  | some p => [.packet p]
  | none => [.notReady]

/-- The environment's `n`-th free request, if it makes one. -/
def drawRequest (n : Nat) : List Request := (Config.freeRequest n).toList

end Sys2Proof.Machine
end

