-- ==== Sys2Proof/Machine/Map.lean ====
section
/-!
DEFINITION. Sparse data by key: a list of (key, value) pairs with keys strictly
rising. It holds the two byte memories of 20_memory.md R30 (key = index) and the
dispatcher's command table (43_command_dispatcher.md R101; key = command byte).
-/
namespace Sys2Proof.Machine

/-- A finite map from naturals, as a list of pairs. -/
abbrev KMap (α : Type) := List (Nat × α)

/-- The canonical form: keys strictly rising, so that equal maps are equal lists. -/
abbrev KMap.wf {α : Type} (m : KMap α) : Prop := m.Pairwise (fun x y => x.1 < y.1)

/-- The value listed at a key, if one is. -/
def KMap.read {α : Type} : KMap α → Nat → Option α
  | [], _ => none
  | (k, v) :: m, a => if a = k then some v else KMap.read m a

/-- The map with the value at one key set; it keeps the canonical form. -/
def KMap.write {α : Type} : KMap α → Nat → α → KMap α
  | [], a, b => [(a, b)]
  | (k, v) :: m, a, b =>
    if a < k then (a, b) :: (k, v) :: m
    else if a = k then (a, b) :: m
    else (k, v) :: KMap.write m a b

/-- A byte memory: the cells written so far. An unlisted address holds no value of the
model's: a reader draws a free one there (log 3, log 4). -/
abbrev Memory := List Host.Cell

/-- The canonical form of a memory: addresses strictly rising. No cell can equal what an
unlisted address reads as, since that is no listed value. -/
abbrev Memory.wf (m : Memory) : Prop := KMap.wf m

end Sys2Proof.Machine
end

