-- ==== Sys2Proof/Machine/State.lean ====
section
/-!
DEFINITION. The state of the machine: the ten elements of 10_state.md R10, the output
traces of R22, what the block touches and does not own (20_memory.md R30), the command
dispatcher's state (43_command_dispatcher.md R101), the configuration it runs under,
and the environment's requests to come. Also why a step can stop, and the reset state.
-/
namespace Sys2Proof.Machine

/-- `rx_state` (R12). -/
inductive RxState where
  | idle
  | accumulating
  | done
  | timedOut
  deriving DecidableEq, Repr

/-- `tx_state` (R18). -/
inductive TxState where
  | idle
  | sending
  deriving DecidableEq, Repr

/-- A diagnostic event of `diag_out` (R22, R110). -/
inductive Diag where
  | timeout
  | malformed
  | overflow
  deriving DecidableEq, Repr

/-- The conditions of 60_exceptions.md R110: the first three are the block's, the others
the dispatcher's. -/
inductive Condition where
  | timeout
  | malformedContinuation
  | bufferOverflow
  | unaddressedMessage
  | unknownCommand
  | registrationOverflow
  deriving DecidableEq, Repr

/-- The invocation of a callback: "an output event (callback, argument bytes)" (R101). -/
structure Call where
  callback : Callback
  args : List Byte
  deriving DecidableEq, Repr

/-- What REGISTER returns (R102). -/
inductive RegResult where
  | ok
  | regFull
  deriving DecidableEq, Repr

/-- The machine's state. Field names are the spec's in camel case. -/
structure State where
  /-- The configuration of R6: no step writes it. Log 2. -/
  cfg : Config
  /-- `rx_state` (R12). -/
  rxState : RxState
  /-- `rx_buf` (R13), the space RXBUF (R30): the cells written since reset. -/
  rxBuf : Memory
  /-- `rx_len` (R14). -/
  rxLen : Nat
  /-- `rx_polls` (R15). -/
  rxPolls : Nat
  /-- `rx_overflow` (R16). -/
  rxOverflow : Bool
  /-- `rx_malformed` (R17). -/
  rxMalformed : Bool
  /-- `tx_state` (R18). -/
  txState : TxState
  /-- `tx_cursor` (R19). -/
  txCursor : Nat
  /-- `tx_len` (R20). -/
  txLen : Nat
  /-- `tx_cable` (R21). -/
  txCable : Nibble
  /-- Which memory `TXPAY` of the current send is (R90). Log 13. -/
  txPayRef : PayRef
  /-- The requester's payload memory, the space TXPAY (R30): the cells written. -/
  txPay : Memory
  /-- `tx_out`, the space TXSTREAM (R22, R30), oldest first. -/
  txOut : List Packet
  /-- `evt_out` (R22), oldest first. -/
  evtOut : List Event
  /-- `diag_out` (R22), oldest first. -/
  diagOut : List Diag
  /-- The space RXSTREAM (R30): the transport's next answers, oldest first. -/
  rxStream : List Answer
  /-- Where its answers come from after those. The model's own field. Log 5. -/
  answersAfter : Source Answer
  /-- The environment's next requests, oldest first. The model's own field. Log 5. -/
  requests : List Request
  /-- Where its requests come from after those. The model's own field. Log 5. -/
  requestsAfter : Source Request
  /-- `cmd_table` (R101), keyed by the command byte's value. -/
  cmdTable : KMap Callback
  /-- Device initialisation is not over: REGISTER is enabled "during device
  initialization only" (R102, R131). Log 10. -/
  initPhase : Bool
  /-- What REGISTER returned so far (R102), oldest first. Log 12. -/
  regOut : List RegResult
  /-- The callbacks invoked so far (R101, R103), oldest first. Log 12. -/
  callOut : List Call
  /-- How many RESETs there have been: each draws a fresh `rx_buf` content (R28). The
  model's own field. Log 3. -/
  resets : Nat
  deriving DecidableEq, Repr

/-- Why the machine stops with a fault. It never does: no packet is illegal (R52), DECODE
has "no failure mode" (R60) and no condition of R110 stops the block; so there is no
constructor. -/
inductive Fault where
  deriving DecidableEq, Repr

/-- Why a step is refused. R70: "When not enabled the operation does not exist: no packet
is consumed, nothing changes"; V-RX17: "A model refuses the step (it does not fault)". -/
inductive Refusal where
  /-- An instruction without a meaning. No arm of this model answers it. Safe. -/
  | notModelled (mnemonic : String)
  /-- RX_POLL, whatever the answer, outside Idle and Accumulating or while TxSending
  (R55, R70). Safe: the machine does not go on. -/
  | rxPollNotEnabled
  /-- RX_RELEASE outside Done and TimedOut or while TxSending (R55, R79). Safe. -/
  | rxReleaseNotEnabled
  /-- TX_START while TxSending or while Accumulating (R55, R90). Safe. -/
  | txStartNotEnabled
  /-- TX_STEP in TxIdle (R55, R92). Safe. -/
  | txStepNotEnabled
  /-- REGISTER after device initialisation (R55, R102), or during a send or a reassembly
  (log 11). Safe. -/
  | registerNotEnabled
  /-- DISPATCH outside Done (R55, R104), or during a send (log 11). Safe. -/
  | dispatchNotEnabled
  /-- No operation at all: the block holds a result and nothing is requested. It is where a
  finite run ends (R143): the hold is lifted by the consumer alone (R12, 92 D8: "if the
  consumer never releases, the model is stuck"). Raised by `goOn`. Safe. -/
  | resultHeld
  deriving DecidableEq, Repr

/-- The state right after RESET of a device with configuration `c` (10_state.md R28): the
ten elements and the traces as R28 gives them, no byte of `rx_buf` known, and an environment
of which nothing is known: any answer to every poll (R70), any request (R142). -/
def State.resetOf (c : Config) : State :=
  { cfg := c
    rxState := .idle
    rxBuf := []
    rxLen := 0
    rxPolls := 0
    rxOverflow := false
    rxMalformed := false
    txState := .idle
    txCursor := 0
    txLen := 0
    txCable := 0#4
    txPayRef := .own
    txPay := []
    txOut := []
    evtOut := []
    diagOut := []
    rxStream := []
    answersAfter := .free 0
    requests := []
    requestsAfter := .free 0
    cmdTable := []
    initPhase := true
    regOut := []
    callOut := []
    resets := 0 }

/-- The machine right after reset (R28), of the device whose open parameters are unknown. -/
def State.reset : State := State.resetOf Config.thisDevice

end Sys2Proof.Machine
end

