-- ==== Sys2Proof/Machine/Operands.lean ====
section
/-!
DEFINITION. The operands: which data slots of a packet carry message bytes
(30_encoding.md R50), the reads of the two byte memories (20_memory.md R30), the
outgoing logical sequence S(i) (R40) and what the consumer may read
(10_state.md R26, 41_sysex_reassembler.md R80).
-/
namespace Sys2Proof.Machine

/-- The bytes of the logical sequence a packet carries, by its kind (R50): SC and E3
three, E2 two, E1 one; the markers count. Another packet carries none. -/
def messageBytes : Instr → List Byte
  | .sc _ d0 d1 d2 => [d0, d1, d2]
  | .e3 _ d0 d1 d2 => [d0, d1, d2]
  | .e2 _ d0 d1 _ => [d0, d1]
  | .e1 _ d0 _ _ => [d0]
  | .ns0 _ _ _ _ => []
  | .ns1 _ _ _ _ => []
  | .ns2 _ _ _ _ => []
  | .ns3 _ _ _ _ => []
  | .ns8 _ _ _ _ => []
  | .ns9 _ _ _ _ => []
  | .nsA _ _ _ _ => []
  | .nsB _ _ _ _ => []
  | .nsC _ _ _ _ => []
  | .nsD _ _ _ _ => []
  | .nsE _ _ _ _ => []
  | .nsF _ _ _ _ => []

/-- `MemRead(RXBUF:i, 1)` (R30): the byte last written there since reset, else the free
byte R28 leaves there. -/
def State.rxByte (s : State) (i : Nat) : Byte :=
  (KMap.read s.rxBuf i).getD (Config.freeRxByte s.resets i)

/-- `MemRead(TXPAY:i, 1)` (R30, R40), from the memory TX_START was given by reference
(R90): the requester's own, or the reassembly buffer. DESIGN CHOICE, log 13: a send of the
buffer longer than it is meant for is not refused. At indices from `rx_len` on it reads what
the buffer holds there, and at indices from `CAP` on, where there is no buffer (R13, R30),
a free byte. -/
def State.payByte (s : State) (i : Nat) : Byte :=
  match s.txPayRef with
  | .own => (KMap.read s.txPay i).getD (Config.freePayByte i)
  | .rxBuf => s.rxByte i

/-- `S(i)` (R40): the byte at position `i` of the outgoing logical sequence, computed on
demand. It is asked for no `i > tx_len + 1` (R92). -/
def State.seqByte (s : State) (i : Nat) : Byte :=
  if i = 0 then Config.sysexStart
  else if i ≤ s.txLen then s.payByte (i - 1)
  else Config.sysexEnd

/-- The outgoing logical sequence, `S(0) .. S(tx_len + 1)` (R91). The block never holds
it: it is here for claims. -/
def State.logicalSequence (s : State) : List Byte :=
  (List.range (s.txLen + 2)).map s.seqByte

/-- `rx_payload = rx_buf[0 .. rx_len)` (R26). -/
def State.rxPayload (s : State) : List Byte := (List.range s.rxLen).map s.rxByte

/-- What the consumer may read of the buffer (R35, R80): nothing in Accumulating; in
TimedOut the length is 0; in Idle the last result is still there. -/
def State.exposed (s : State) : Option (List Byte) :=
  match s.rxState with
  | .idle => some s.rxPayload
  | .accumulating => none
  | .done => some s.rxPayload
  | .timedOut => some s.rxPayload

end Sys2Proof.Machine
end

