-- ==== Sys2Proof/Machine/Flags.lean ====
section
/-!
DEFINITION. The flag computations (10_state.md R16, R17; 20_memory.md R39), the signals
derived from the state (R26), the enabling conditions (30_encoding.md R55), the final
states of a run (70_reset_and_hazards.md R143) and the spec's numbering (92 D15).
-/
namespace Sys2Proof.Machine

/-- The number of a reassembler state (R12). -/
def RxState.code : RxState → Nat
  | .idle => 0
  | .accumulating => 1
  | .done => 2
  | .timedOut => 3

/-- The number of a fragmenter state (R18). -/
def TxState.code : TxState → Nat
  | .idle => 0
  | .sending => 1

/-- The number of a diagnostic (R110). -/
def Diag.code : Diag → Nat
  | .timeout => 1
  | .malformed => 2
  | .overflow => 3

/-- The number of a condition (R110). -/
def Condition.code : Condition → Nat
  | .timeout => 1
  | .malformedContinuation => 2
  | .bufferOverflow => 3
  | .unaddressedMessage => 4
  | .unknownCommand => 5
  | .registrationOverflow => 6

/-- The diagnostic a condition puts on `diag_out`, if any (R110). -/
def Condition.diag : Condition → Option Diag
  | .timeout => some .timeout
  | .malformedContinuation => some .malformed
  | .bufferOverflow => some .overflow
  | .unaddressedMessage => none
  | .unknownCommand => none
  | .registrationOverflow => none

/-- There is room for one more byte: the check every append makes (R39). -/
def State.hasRoom (s : State) : Bool := decide (s.rxLen < s.cfg.cap)

/-- `rx_busy` (R26). -/
def State.rxBusy (s : State) : Bool := s.rxState == .accumulating

/-- `rx_result_ready` (R26). -/
def State.rxResultReady (s : State) : Bool := s.rxState == .done || s.rxState == .timedOut

/-- `rx_valid`: "a complete, untruncated message is in the buffer" (R26). -/
def State.rxValid (s : State) : Bool :=
  s.rxState == .done && !s.rxOverflow && !s.rxMalformed

/-- `tx_busy` (R26). -/
def State.txBusy (s : State) : Bool := s.txState == .sending

/-- RX_POLL is enabled (R55, R70). -/
def State.rxPollEnabled (s : State) : Bool :=
  (s.rxState == .idle || s.rxState == .accumulating) && s.txState == .idle

/-- RX_RELEASE is enabled (R55, R79, C9). -/
def State.rxReleaseEnabled (s : State) : Bool := s.rxResultReady && s.txState == .idle

/-- TX_START is enabled (R55, R90). -/
def State.txStartEnabled (s : State) : Bool :=
  s.txState == .idle && s.rxState != .accumulating

/-- TX_STEP is enabled (R55, R92). -/
def State.txStepEnabled (s : State) : Bool := s.txState == .sending

/-- REGISTER is enabled: during device initialisation (R102, R131), and not while only
the block's own operations are (R70, R92). DEDUCED, logs 10 and 11. -/
def State.registerEnabled (s : State) : Bool :=
  s.initPhase && s.txState == .idle && s.rxState != .accumulating

/-- DISPATCH is enabled: "after Done" (R55, R104), and not during a send, while only
TX_STEP and RESET are (R92). DEDUCED, log 11. -/
def State.dispatchEnabled (s : State) : Bool := s.rxState == .done && s.txState == .idle

/-- The block is quiescent (R143). -/
def State.quiescent (s : State) : Bool := s.rxState == .idle && s.txState == .idle

/-- The block holds a result (R143). -/
def State.holdsResult (s : State) : Bool := s.rxResultReady && s.txState == .idle

end Sys2Proof.Machine
end

