-- ==== Sys2Proof/Machine/Ops.lean ====
section
/-!
DEFINITION. The named operations the meanings are made of: the updates of the state,
Append (20_memory.md R39), raising a condition (60_exceptions.md R110 to R118) and the
return from a result state (R119), EndMessage (41_sysex_reassembler.md R78), and the
dispatch of a packet by the reassembler's state (R70).
-/
namespace Sys2Proof.Machine

/-! Updates of one or two fields. -/

/-- `rx_state <- v`. -/
def State.setRxState (s : State) (v : RxState) : State := { s with rxState := v }

/-- `rx_len <- n`. -/
def State.setRxLen (s : State) (n : Nat) : State := { s with rxLen := n }

/-- `rx_polls <- n`. -/
def State.setRxPolls (s : State) (n : Nat) : State := { s with rxPolls := n }

/-- `rx_overflow <- v`. -/
def State.setRxOverflow (s : State) (v : Bool) : State := { s with rxOverflow := v }

/-- `rx_malformed <- v`. -/
def State.setRxMalformed (s : State) (v : Bool) : State := { s with rxMalformed := v }

/-- `MemWrite(RXBUF:rx_len, 1, b)`, then `rx_len <- rx_len + 1` (R39). -/
def State.storeRx (s : State) (b : Byte) : State :=
  { s with rxBuf := KMap.write s.rxBuf s.rxLen b, rxLen := s.rxLen + 1 }

/-- `emit diag_out d` (R22). -/
def State.emitDiag (s : State) (d : Diag) : State := { s with diagOut := s.diagOut ++ [d] }

/-- `emit evt_out ev` (R22). -/
def State.emitEvt (s : State) (ev : Event) : State := { s with evtOut := s.evtOut ++ [ev] }

/-- `emit tx_out p`: the send primitive, which always completes (R96). Log 7. -/
def State.emitTx (s : State) (p : Packet) : State := { s with txOut := s.txOut ++ [p] }

/-- The cursor and the state of the Fragmenter move together (R92). -/
def State.moveTx (s : State) (cursor : Nat) (v : TxState) : State :=
  { s with txCursor := cursor, txState := v }

/-- What TX_START latches beside that (R90). -/
def State.latchTx (s : State) (cable : Nibble) (len : Nat) (ref : PayRef) : State :=
  { s with txCable := cable, txLen := len, txPayRef := ref }

/-- The transport's answers still to come, after one was taken (R42). -/
def State.setStream (s : State) (as : List Answer) : State := { s with rxStream := as }

/-- The environment's requests still to come, after one was taken. -/
def State.setRequests (s : State) (rs : List Request) : State := { s with requests := rs }

/-- An answer of the transport is listed, if there is one to come. -/
def State.feedAnswers (s : State) : State :=
  { s with
    rxStream := (Source.feed drawAnswer s.rxStream s.answersAfter).1
    answersAfter := (Source.feed drawAnswer s.rxStream s.answersAfter).2 }

/-- A request of the environment is listed, if there is one to come. -/
def State.feedRequests (s : State) : State :=
  { s with
    requests := (Source.feed drawRequest s.requests s.requestsAfter).1
    requestsAfter := (Source.feed drawRequest s.requests s.requestsAfter).2 }

/-- Device initialisation ends: the task loop polls (R131). Log 10. -/
def State.endInit (s : State) : State := { s with initPhase := false }

/-- `cmd_table[k] <- cb` (R102). -/
def State.setCommand (s : State) (k : Byte) (cb : Callback) : State :=
  { s with cmdTable := KMap.write s.cmdTable k.toNat cb }

/-- REGISTER returns its result (R102). -/
def State.returnReg (s : State) (r : RegResult) : State := { s with regOut := s.regOut ++ [r] }

/-- A callback is invoked (R101, R103). -/
def State.invoke (s : State) (c : Call) : State := { s with callOut := s.callOut ++ [c] }

/-- The requester writes its payload memory (R30). -/
def State.writePay (s : State) (i : Nat) (b : Byte) : State :=
  { s with txPay := KMap.write s.txPay i b }

/-! Conditions: the entry and the return. -/

/-- `raise <Condition>`: the entry actions of R118's table, and for the dispatcher's
conditions R114 and R115: "no state changes", the result being what REGISTER returns.
Nothing is saved, no control transfers. -/
def State.raise (s : State) : Condition → State
  | .timeout =>
    (((s.setRxLen 0).setRxPolls 0).emitDiag .timeout).setRxState .timedOut
  | .malformedContinuation =>
    ((((s.setRxMalformed true).emitDiag .malformed).setRxLen 0).setRxPolls 0).setRxState .done
  | .bufferOverflow =>
    if s.rxOverflow then s else (s.emitDiag .overflow).setRxOverflow true
  | .unaddressedMessage => s
  | .unknownCommand => s
  | .registrationOverflow => s

/-- The return from a result state (R79, R119): "`rx_state` <- Idle, nothing else
changes". -/
def State.release (s : State) : State := s.setRxState .idle

/-- `Append(b)` (R39): "the only way the block writes RXBUF". -/
def State.append (s : State) (b : Byte) : State :=
  if s.hasRoom then s.storeRx b else s.raise .bufferOverflow

/-- The start of a reassembly (R72): the length, the flags and the count are cleared. -/
def State.startRx (s : State) : State :=
  (((s.setRxLen 0).setRxOverflow false).setRxMalformed false).setRxPolls 0

/-- A clean end: EndMessage(0) (R78). The message is discarded after an overflow. -/
def State.endClean (s : State) : State :=
  ((((s.setRxMalformed false).setRxLen (if s.rxOverflow then 0 else s.rxLen)).setRxPolls 0).setRxState
    .done)

/-- `EndMessage(m)` (R78): with `m` = 1 it is the entry of Malformed continuation. -/
def State.endMessage (s : State) (m : Bool) : State :=
  if m then s.raise .malformedContinuation else s.endClean

/-- What a packet answer does, by the reassembler's state (R70): in Idle one thing, in
Accumulating another after `rx_polls <- 0`, and elsewhere (or while TxSending) the
operation is not enabled. -/
def State.takePacket (s : State) (inIdle inAccumulating : State → State) :
    Host.Outcome State Fault Refusal :=
  match s.rxState, s.txState with
  | .idle, .idle => .next (inIdle s)
  | .accumulating, .idle => .next (inAccumulating (s.setRxPolls 0))
  | _, _ => .refused .rxPollNotEnabled

/-- An operation with one effect: the effect where it is enabled, else its refusal (R55). -/
def State.guarded (enabled : Bool) (why : Refusal) (t : State) :
    Host.Outcome State Fault Refusal :=
  if enabled then .next t else .refused why

end Sys2Proof.Machine
end

