-- ==== Sys2Proof/Machine/Commands.lean ====
section
/-!
DEFINITION. The Command Dispatcher, software outside the block: REGISTER
(43_command_dispatcher.md R102) and DISPATCH (R103).
-/
namespace Sys2Proof.Machine

/-- REGISTER's effect (R102): the last registration of a code wins, in place; a new code
takes a slot while there is one, else the registration is rejected, the table unchanged. -/
def State.registerCommand (s : State) (k : Byte) (cb : Callback) : State :=
  if (KMap.read s.cmdTable k.toNat).isSome || decide (s.cmdTable.length < s.cfg.cmdMax) then
    (s.setCommand k cb).returnReg .ok
  else (s.raise .registrationOverflow).returnReg .regFull

/-- REGISTER (R102). -/
def register (k : Byte) (cb : Callback) (s : State) : Host.Outcome State Fault Refusal :=
  State.guarded s.registerEnabled .registerNotEnabled (s.registerCommand k cb)

/-- What DISPATCH comes to (R103): one of R110's two conditions, or an invocation. -/
inductive Routing where
  | raised (c : Condition)
  | invoked (c : Call)
  deriving DecidableEq, Repr

/-- DISPATCH over any payload (R103): the length is the list's. The callback gets "the
remainder of the payload (from index 2 onward)". -/
def route (ident : Byte) (table : KMap Callback) (payload : List Byte) : Routing :=
  match payload with
  | [] => .raised .unaddressedMessage
  | [_] => .raised .unaddressedMessage
  | b :: k :: rest =>
    if b = ident then
      match KMap.read table k.toNat with
      | some cb => .invoked ⟨cb, rest⟩
      | none => .raised .unknownCommand
    else .raised .unaddressedMessage

/-- DISPATCH's effect in the flow of R100, where the payload is `rx_buf[0 .. rx_len)`. -/
def State.dispatchResult (s : State) : State :=
  match route s.cfg.ident s.cmdTable s.rxPayload with
  | .raised c => s.raise c
  | .invoked c => s.invoke c

/-- DISPATCH (R103). -/
def dispatch (s : State) : Host.Outcome State Fault Refusal :=
  State.guarded s.dispatchEnabled .dispatchNotEnabled s.dispatchResult

end Sys2Proof.Machine
end

