-- ==== Sys2Proof/Machine/Reassembler.lean ====
section
/-!
DEFINITION. The SysEx Reassembler: what each packet kind does as the answer of an
RX_POLL (41_sysex_reassembler.md R72 to R76), the not-ready answer (R71, R77) and
RX_RELEASE (R79). No meaning reads the cable index but to pass it through, and none
compares a byte with a marker (R81).
-/
namespace Sys2Proof.Machine

/-- SC (R72). In Idle it starts a reassembly: `d0`, taken to be the start marker, is
neither stored nor checked. In Accumulating it continues with all three bytes. -/
def execSC (_cable : Nibble) (d0 d1 d2 : Byte) (s : State) : Host.Outcome State Fault Refusal :=
  s.takePacket
    (fun s => ((s.startRx.append d1).append d2).setRxState .accumulating)
    (fun s => ((s.append d0).append d1).append d2)

/-- E3 (R73): two bytes and the end marker's slot, which is not looked at; in Idle the
event is passed through. -/
def execE3 (cable : Nibble) (d0 d1 d2 : Byte) (s : State) : Host.Outcome State Fault Refusal :=
  s.takePacket
    (fun s => s.emitEvt ⟨cable, Config.cinE3, d0, d1, d2⟩)
    (fun s => ((s.append d0).append d1).endMessage false)

/-- E2 (R74): one byte and the end marker's slot; in Idle the event is passed through. -/
def execE2 (cable : Nibble) (d0 d1 d2 : Byte) (s : State) : Host.Outcome State Fault Refusal :=
  s.takePacket
    (fun s => s.emitEvt ⟨cable, Config.cinE2, d0, d1, d2⟩)
    (fun s => (s.append d0).endMessage false)

/-- E1 (R75): the end marker's slot alone; in Idle the event is passed through. -/
def execE1 (cable : Nibble) (d0 d1 d2 : Byte) (s : State) : Host.Outcome State Fault Refusal :=
  s.takePacket
    (fun s => s.emitEvt ⟨cable, Config.cinE1, d0, d1, d2⟩)
    (fun s => s.endMessage false)

/-- A packet of another kind (R76): in Idle the event is passed through; in Accumulating
it is a malformed continuation, consumed and lost. -/
def State.otherKind (s : State) (ev : Event) : Host.Outcome State Fault Refusal :=
  s.takePacket (fun s => s.emitEvt ev) (fun s => s.endMessage true)

/-- NS0 (R76, code index 0x0). -/
def execNS0 (cable : Nibble) (d0 d1 d2 : Byte) (s : State) : Host.Outcome State Fault Refusal :=
  s.otherKind ⟨cable, 0x0#4, d0, d1, d2⟩

/-- NS1 (R76, code index 0x1). -/
def execNS1 (cable : Nibble) (d0 d1 d2 : Byte) (s : State) : Host.Outcome State Fault Refusal :=
  s.otherKind ⟨cable, 0x1#4, d0, d1, d2⟩

/-- NS2 (R76, code index 0x2). -/
def execNS2 (cable : Nibble) (d0 d1 d2 : Byte) (s : State) : Host.Outcome State Fault Refusal :=
  s.otherKind ⟨cable, 0x2#4, d0, d1, d2⟩

/-- NS3 (R76, code index 0x3). -/
def execNS3 (cable : Nibble) (d0 d1 d2 : Byte) (s : State) : Host.Outcome State Fault Refusal :=
  s.otherKind ⟨cable, 0x3#4, d0, d1, d2⟩

/-- NS8 (R76, code index 0x8). -/
def execNS8 (cable : Nibble) (d0 d1 d2 : Byte) (s : State) : Host.Outcome State Fault Refusal :=
  s.otherKind ⟨cable, 0x8#4, d0, d1, d2⟩

/-- NS9 (R76, code index 0x9). -/
def execNS9 (cable : Nibble) (d0 d1 d2 : Byte) (s : State) : Host.Outcome State Fault Refusal :=
  s.otherKind ⟨cable, 0x9#4, d0, d1, d2⟩

/-- NSA (R76, code index 0xA). -/
def execNSA (cable : Nibble) (d0 d1 d2 : Byte) (s : State) : Host.Outcome State Fault Refusal :=
  s.otherKind ⟨cable, 0xA#4, d0, d1, d2⟩

/-- NSB (R76, code index 0xB). -/
def execNSB (cable : Nibble) (d0 d1 d2 : Byte) (s : State) : Host.Outcome State Fault Refusal :=
  s.otherKind ⟨cable, 0xB#4, d0, d1, d2⟩

/-- NSC (R76, code index 0xC). -/
def execNSC (cable : Nibble) (d0 d1 d2 : Byte) (s : State) : Host.Outcome State Fault Refusal :=
  s.otherKind ⟨cable, 0xC#4, d0, d1, d2⟩

/-- NSD (R76, code index 0xD). -/
def execNSD (cable : Nibble) (d0 d1 d2 : Byte) (s : State) : Host.Outcome State Fault Refusal :=
  s.otherKind ⟨cable, 0xD#4, d0, d1, d2⟩

/-- NSE (R76, code index 0xE). -/
def execNSE (cable : Nibble) (d0 d1 d2 : Byte) (s : State) : Host.Outcome State Fault Refusal :=
  s.otherKind ⟨cable, 0xE#4, d0, d1, d2⟩

/-- NSF (R76, code index 0xF). -/
def execNSF (cable : Nibble) (d0 d1 d2 : Byte) (s : State) : Host.Outcome State Fault Refusal :=
  s.otherKind ⟨cable, 0xF#4, d0, d1, d2⟩

/-- The not-ready answer: R71 in Idle (nothing changes, nothing is counted), R77 in
Accumulating (the `TIMEOUT_BUDGET`-th consecutive one times out). -/
def notReady (s : State) : Host.Outcome State Fault Refusal :=
  match s.rxState, s.txState with
  | .idle, .idle => .next s
  | .accumulating, .idle =>
    .next (if s.cfg.timeoutBudget ≤ s.rxPolls + 1 then s.raise .timeout
      else s.setRxPolls (s.rxPolls + 1))
  | _, _ => .refused .rxPollNotEnabled

/-- RX_RELEASE (R79): "the consumer saying it has finished with the result". -/
def rxRelease (s : State) : Host.Outcome State Fault Refusal :=
  State.guarded s.rxReleaseEnabled .rxReleaseNotEnabled s.release

end Sys2Proof.Machine
end

