-- ==== Sys2Proof/Machine/Dispatch.lean ====
section
/-!
DEFINITION. One arm per instruction: the meaning it has as the packet answer of an
RX_POLL (41_sysex_reassembler.md R70).
-/
namespace Sys2Proof.Machine

def exec (i : Instr) (s : State) : Host.Outcome State Fault Refusal :=
  match i with
  | .sc cable d0 d1 d2 => Sys2Proof.Machine.execSC cable d0 d1 d2 s
  | .e1 cable d0 d1 d2 => Sys2Proof.Machine.execE1 cable d0 d1 d2 s
  | .e2 cable d0 d1 d2 => Sys2Proof.Machine.execE2 cable d0 d1 d2 s
  | .e3 cable d0 d1 d2 => Sys2Proof.Machine.execE3 cable d0 d1 d2 s
  | .ns0 cable d0 d1 d2 => Sys2Proof.Machine.execNS0 cable d0 d1 d2 s
  | .ns1 cable d0 d1 d2 => Sys2Proof.Machine.execNS1 cable d0 d1 d2 s
  | .ns2 cable d0 d1 d2 => Sys2Proof.Machine.execNS2 cable d0 d1 d2 s
  | .ns3 cable d0 d1 d2 => Sys2Proof.Machine.execNS3 cable d0 d1 d2 s
  | .ns8 cable d0 d1 d2 => Sys2Proof.Machine.execNS8 cable d0 d1 d2 s
  | .ns9 cable d0 d1 d2 => Sys2Proof.Machine.execNS9 cable d0 d1 d2 s
  | .nsA cable d0 d1 d2 => Sys2Proof.Machine.execNSA cable d0 d1 d2 s
  | .nsB cable d0 d1 d2 => Sys2Proof.Machine.execNSB cable d0 d1 d2 s
  | .nsC cable d0 d1 d2 => Sys2Proof.Machine.execNSC cable d0 d1 d2 s
  | .nsD cable d0 d1 d2 => Sys2Proof.Machine.execNSD cable d0 d1 d2 s
  | .nsE cable d0 d1 d2 => Sys2Proof.Machine.execNSE cable d0 d1 d2 s
  | .nsF cable d0 d1 d2 => Sys2Proof.Machine.execNSF cable d0 d1 d2 s

end Sys2Proof.Machine
end

