-- ==== Sys2Proof/Machine/Fragmenter.lean ====
section
/-!
DEFINITION. The SysEx Fragmenter: TX_START (42_sysex_fragmenter.md R90) and TX_STEP
(R92).
-/
namespace Sys2Proof.Machine

/-- TX_START's effect (R90): the request is latched; no packet goes out. -/
def State.beginSend (s : State) (cable : Nibble) (len : Nat) (ref : PayRef) : State :=
  (s.latchTx cable len ref).moveTx 0 .sending

/-- The bytes of the logical sequence not yet emitted: `r` of R92. -/
def State.txRemaining (s : State) : Nat := s.txLen + 2 - s.txCursor

/-- The packet TX_STEP emits (R92), the unused slots filled with PAD (R51). -/
def State.nextTxPacket (s : State) : Packet :=
  if 3 < s.txRemaining then
    encodePacket Config.cinSC s.txCable (s.seqByte s.txCursor) (s.seqByte (s.txCursor + 1))
      (s.seqByte (s.txCursor + 2))
  else if s.txRemaining = 3 then
    encodePacket Config.cinE3 s.txCable (s.seqByte s.txCursor) (s.seqByte (s.txCursor + 1))
      (s.seqByte (s.txCursor + 2))
  else if s.txRemaining = 2 then
    encodePacket Config.cinE2 s.txCable (s.seqByte s.txCursor) (s.seqByte (s.txCursor + 1))
      Config.pad
  else
    encodePacket Config.cinE1 s.txCable (s.seqByte s.txCursor) Config.pad Config.pad

/-- TX_STEP's effect (R92): one packet goes out; after an SC the cursor advances by
three, after an end packet it is at the end and the Fragmenter is idle. -/
def State.sendNext (s : State) : State :=
  if 3 < s.txRemaining then (s.emitTx s.nextTxPacket).moveTx (s.txCursor + 3) .sending
  else (s.emitTx s.nextTxPacket).moveTx (s.txLen + 2) .idle

/-- TX_START (R90). -/
def txStart (cable : Nibble) (len : Nat) (ref : PayRef) (s : State) :
    Host.Outcome State Fault Refusal :=
  State.guarded s.txStartEnabled .txStartNotEnabled (s.beginSend cable len ref)

/-- TX_STEP (R92). -/
def txStep (s : State) : Host.Outcome State Fault Refusal :=
  State.guarded s.txStepEnabled .txStepNotEnabled s.sendNext

end Sys2Proof.Machine
end

