-- ==== Sys2Proof/Machine/Requests.lean ====
section
/-!
DEFINITION. The operations as the environment requests them (30_encoding.md R55,
70_reset_and_hazards.md R142): RX_POLL, which fetches the transport's next answer
(41_sysex_reassembler.md R70), RESET (R130), and what the block does when nothing is
requested.
-/
namespace Sys2Proof.Machine

/-- RX_POLL (R70): one call of the transport's receive with all the block does with the
answer. A packet is removed from RXSTREAM (R42), decoded and run; where no answer is to come
the transport has no packet available. A poll is the task loop running, so device
initialisation is over (R131, log 10). -/
def rxPoll (s : State) : Host.Outcome State Fault Refusal :=
  match s.feedAnswers.rxStream with
  | [] => notReady s.feedAnswers.endInit
  | .notReady :: as => notReady (s.feedAnswers.setStream as).endInit
  | .packet p :: as => exec (decode p) (s.feedAnswers.setStream as).endInit

/-- RESET (R130): every element takes its value of R28, the traces start empty, and
`rx_buf` holds bytes freshly drawn. What is outside the block stays: the transport's
answers, the requester's memory and the requests to come. -/
def State.resetBlock (s : State) : State :=
  { State.resetOf s.cfg with
    rxStream := s.rxStream
    answersAfter := s.answersAfter
    requests := s.requests
    requestsAfter := s.requestsAfter
    txPay := s.txPay
    resets := s.resets + 1 }

/-- One requested operation. -/
def perform (r : Request) (s : State) : Host.Outcome State Fault Refusal :=
  match r with
  | .rxPoll => rxPoll s
  | .rxRelease => rxRelease s
  | .txStart cable len ref => txStart cable len ref s
  | .txStep => txStep s
  | .reset => .next s.resetBlock
  | .register code cb => register code cb s
  | .dispatch => dispatch s
  | .payWrite i b => .next (s.writePay i b)

/-- What happens when nothing is requested: a send goes on (R92), the block polls by
itself in Accumulating (R70) and the task loop polls it in Idle (R131). A held result waits
for the consumer (R12): no operation is left, and the run ends (R143). Log 5. -/
def goOn (s : State) : Host.Outcome State Fault Refusal :=
  match s.txState, s.rxState with
  | .sending, _ => txStep s
  | .idle, .idle => rxPoll s
  | .idle, .accumulating => rxPoll s
  | .idle, .done => .refused .resultHeld
  | .idle, .timedOut => .refused .resultHeld

/-- The next operation: the oldest request, else the block goes on. -/
def runNext (s : State) : Host.Outcome State Fault Refusal :=
  match s.feedRequests.requests with
  | [] => goOn s.feedRequests
  | r :: rs => perform r (s.feedRequests.setRequests rs)

/-- The state in which the next operation is an RX_POLL that the transport answers with
packet `p`. -/
def State.offerPacket (s : State) (p : Packet) : State :=
  (s.setStream (.packet p :: s.rxStream)).setRequests (.rxPoll :: s.requests)

end Sys2Proof.Machine
end

