-- ==== Sys2Proof/Machine/Step.lean ====
section
/-!
DEFINITION. One step of the machine: one atomic operation of 00_scope.md R9. And the
host's way to place an instruction where the next step fetches it.
-/
namespace Sys2Proof.Machine

/-- One step: the oldest request of the environment, or what the block does by itself. -/
def step (s : State) : Host.Outcome State Fault Refusal := runNext s

/-- `s` with the packet of these bits as the answer to a poll requested next. Log 15. -/
def State.withFetchWord (s : State) (nbits w : Nat) : State :=
  s.offerPacket (Packet.ofTable nbits w)

end Sys2Proof.Machine
end

