-- ==== Sys2Proof/Safety.lean ====
section
/-!
DEFINITION. What a sound state is (the invariants of 10_state.md R12 to R20,
41_sysex_reassembler.md R82(c) and (e), 42_sysex_fragmenter.md R94,
43_command_dispatcher.md R101), and the words claims use for messages: a legal
continuation sequence (30_encoding.md R53) with its payload, and the transport's answers
that deliver it with gaps.
-/
namespace Sys2Proof.Machine

/-- The invariant of every reachable state. -/
structure Sound (s : State) : Prop where
  /-- R6: the budget is at least 1. -/
  budget : s.cfg.wf = true
  /-- R14: "length never exceeds capacity". -/
  lenLeCap : s.rxLen ≤ s.cfg.cap
  /-- R15, R82(c). -/
  pollsLt : s.rxPolls < s.cfg.timeoutBudget
  /-- R15: 0 whenever not Accumulating. -/
  pollsZero : s.rxState ≠ .accumulating → s.rxPolls = 0
  /-- R82(c): `rx_malformed = 0` in Accumulating and TimedOut. -/
  malformedClear : s.rxState = .accumulating ∨ s.rxState = .timedOut → s.rxMalformed = false
  /-- R12: in TimedOut `rx_len` is 0. -/
  timedOutEmpty : s.rxState = .timedOut → s.rxLen = 0
  /-- R26, R82(c): outside Accumulating a nonzero length means both flags are 0. -/
  lenMeansClean : s.rxState ≠ .accumulating → 0 < s.rxLen →
    s.rxOverflow = false ∧ s.rxMalformed = false
  /-- R39: nothing lowers `rx_len` between a rejected append and the end. -/
  overflowFull : s.rxState = .accumulating → s.rxOverflow = true → s.rxLen = s.cfg.cap
  /-- R82(e), and what it needs in Accumulating. -/
  lenTwo : 2 ≤ s.cfg.cap → (s.rxState = .accumulating → 2 ≤ s.rxLen) ∧
    (s.rxState = .done → s.rxLen = 0 ∨ 2 ≤ s.rxLen)
  /-- The buffer's cells are in canonical form. -/
  bufWf : Memory.wf s.rxBuf
  /-- R13, R113: no byte is ever written outside `rx_buf[0 .. CAP)`. -/
  bufInside : ∀ c ∈ s.rxBuf, c.1 < s.cfg.cap
  /-- Every byte below `rx_len` has been written since reset, so no free value of the
  buffer is ever exposed (R28, R82). -/
  bufWritten : ∀ i, i < s.rxLen → (KMap.read s.rxBuf i).isSome = true
  /-- The requester's cells are in canonical form. -/
  payWf : Memory.wf s.txPay
  /-- R19: `tx_cursor <= tx_len + 2`. -/
  cursorLe : s.txCursor ≤ s.txLen + 2
  /-- R19, R94: while TxSending. -/
  cursorSending : s.txState = .sending → s.txCursor % 3 = 0 ∧ s.txCursor < s.txLen + 2
  /-- R36: a send and a reassembly never overlap. -/
  exclusive : s.txState = .sending → s.rxState ≠ .accumulating
  /-- R101: a command code is registered at most once. -/
  tableWf : KMap.wf s.cmdTable
  /-- R101: at most `CMD_MAX` entries. -/
  tableLe : s.cmdTable.length ≤ s.cfg.cmdMax

/-- Two states that nobody may tell apart by the buffer's hidden bytes: equal in every
element but `rx_buf`, where they agree below `rx_len` (R13, R35: bytes at indices at or
above `rx_len` "are never exposed"). -/
def sameExposed (s t : State) : Prop :=
  t = { s with rxBuf := t.rxBuf } ∧
    ∀ i, i < s.rxLen → KMap.read t.rxBuf i = KMap.read s.rxBuf i

/-- A packet of kind SC. -/
def isStartOrContinue (p : Packet) : Bool := lowNibble p.b0 == Config.cinSC

/-- A packet of kind E1, E2 or E3. -/
def isEnd (p : Packet) : Bool :=
  lowNibble p.b0 == Config.cinE1 || lowNibble p.b0 == Config.cinE2 ||
    lowNibble p.b0 == Config.cinE3

/-- A legal continuation sequence (R53): one SC, any number of SC, one end packet. -/
structure LegalSequence where
  first : Packet
  middle : List Packet
  last : Packet

/-- The packet kinds are those of R53. -/
def LegalSequence.wf (q : LegalSequence) : Bool :=
  isStartOrContinue q.first && q.middle.all isStartOrContinue && isEnd q.last

/-- The packets in order. -/
def LegalSequence.packets (q : LegalSequence) : List Packet :=
  q.first :: (q.middle ++ [q.last])

/-- The payload bytes of an end packet: its message bytes (R50) but the end marker. -/
def endPayload (p : Packet) : List Byte := (messageBytes (decode p)).dropLast

/-- The payload a legal sequence carries (R50, R53): the message bytes without the start
marker and without the end marker. -/
def LegalSequence.payload (q : LegalSequence) : List Byte :=
  [q.first.b2, q.first.b3] ++ q.middle.flatMap (fun p => [p.b1, p.b2, p.b3]) ++
    endPayload q.last

/-- The transport's answers that deliver packets, each after a number of not-ready
answers. -/
def deliver : List (Nat × Packet) → List Answer
  | [] => []
  | (gap, p) :: rest => List.replicate gap .notReady ++ .packet p :: deliver rest

/-- Nothing is ever requested, so that every step is the block's own. -/
abbrev State.unasked (s : State) : Prop :=
  s.requests = [] ∧ s.requestsAfter = .repeats []

end Sys2Proof.Machine
end

