-- ==== Sys2Proof/Certificates/Slice0/Obligations.lean ====
section
/-!
DEFINITION. The statements about the codec, one `def Obligations.<Name> : Prop` each.
Rules are those of spec/; "log <n>" is notes/assumptions/<n>.md. A frame is said by
`t = { s with ... }`: every field not named there is as before. Every byte of RXBUF is
read through `KMap.read`, the model's read of one cell.
-/

open Sys2Proof Sys2Proof.Machine

/-! ## Packet Codec and encoding -/

/-- R62: ENCODE and DECODE are inverse, so both are bijections between packets and
events, and no bit of a packet is dropped. -/
def Obligations.CodecRoundTrip : Prop :=
  (∀ p : Packet, encodePacket (decodeEvent p).cin (decodeEvent p).cable (decodeEvent p).d0
      (decodeEvent p).d1 (decodeEvent p).d2 = p) ∧
  (∀ (cin cable : Nibble) (b0 b1 b2 : Byte),
    decodeEvent (encodePacket cin cable b0 b1 b2) = ⟨cable, cin, b0, b1, b2⟩) ∧
  (∀ p q : Packet, decodeEvent p = decodeEvent q → p = q) ∧
  (∀ ev : Event, ∃ p : Packet, decodeEvent p = ev)

/-- For every instruction, with every operand at every value, decoding its encoding gives
it back, as a packet and as bytes; and a packet or byte list that decodes to an
instruction is that instruction's encoding. -/
def Obligations.InstrEncodeDecode : Prop :=
  (∀ i : Instr, decode (encode i) = i) ∧
  (∀ p : Packet, encode (decode p) = p) ∧
  (∀ i : Instr, decodeBytes (encodeBytes i) = .ok i) ∧
  (∀ (bs : List Byte) (i : Instr), decodeBytes bs = .ok i → encodeBytes i = bs)

/-- Words written out from R45, R48 and R52, most of them the spec's V-C vectors, decode
to the packets they stand for. -/
def Obligations.SpecWordsDecode : Prop :=
  decodeBytes [0x04#8, 0xF0#8, 0x1B#8, 0x01#8] = .ok (.sc 0#4 0xF0#8 0x1B#8 0x01#8) ∧
  decodeBytes [0x37#8, 0xAA#8, 0xBB#8, 0xF7#8] = .ok (.e3 3#4 0xAA#8 0xBB#8 0xF7#8) ∧
  decodeBytes [0x26#8, 0x13#8, 0xF7#8, 0x00#8] = .ok (.e2 2#4 0x13#8 0xF7#8 0x00#8) ∧
  decodeBytes [0xF5#8, 0xF7#8, 0x00#8, 0x00#8] = .ok (.e1 15#4 0xF7#8 0x00#8 0x00#8) ∧
  decodeBytes [0x09#8, 0x90#8, 0x3C#8, 0x7F#8] = .ok (.ns9 0#4 0x90#8 0x3C#8 0x7F#8) ∧
  decodeBytes [0x00#8, 0x00#8, 0x00#8, 0x00#8] = .ok (.ns0 0#4 0x00#8 0x00#8 0x00#8) ∧
  decodeBytes [0xFF#8, 0xFF#8, 0xFF#8, 0xFF#8] = .ok (.nsF 15#4 0xFF#8 0xFF#8 0xFF#8)

/-- R55, R48, R52: the code index alone selects among the sixteen packet kinds, every
code index selects one, and the cable index and the data bytes are its operands. -/
def Obligations.CodeIndexSelectsKind : Prop :=
  ∀ (c : Nibble) (d0 d1 d2 : Byte),
    decode (encodePacket 0x0#4 c d0 d1 d2) = .ns0 c d0 d1 d2 ∧
    decode (encodePacket 0x1#4 c d0 d1 d2) = .ns1 c d0 d1 d2 ∧
    decode (encodePacket 0x2#4 c d0 d1 d2) = .ns2 c d0 d1 d2 ∧
    decode (encodePacket 0x3#4 c d0 d1 d2) = .ns3 c d0 d1 d2 ∧
    decode (encodePacket 0x4#4 c d0 d1 d2) = .sc c d0 d1 d2 ∧
    decode (encodePacket 0x5#4 c d0 d1 d2) = .e1 c d0 d1 d2 ∧
    decode (encodePacket 0x6#4 c d0 d1 d2) = .e2 c d0 d1 d2 ∧
    decode (encodePacket 0x7#4 c d0 d1 d2) = .e3 c d0 d1 d2 ∧
    decode (encodePacket 0x8#4 c d0 d1 d2) = .ns8 c d0 d1 d2 ∧
    decode (encodePacket 0x9#4 c d0 d1 d2) = .ns9 c d0 d1 d2 ∧
    decode (encodePacket 0xA#4 c d0 d1 d2) = .nsA c d0 d1 d2 ∧
    decode (encodePacket 0xB#4 c d0 d1 d2) = .nsB c d0 d1 d2 ∧
    decode (encodePacket 0xC#4 c d0 d1 d2) = .nsC c d0 d1 d2 ∧
    decode (encodePacket 0xD#4 c d0 d1 d2) = .nsD c d0 d1 d2 ∧
    decode (encodePacket 0xE#4 c d0 d1 d2) = .nsE c d0 d1 d2 ∧
    decode (encodePacket 0xF#4 c d0 d1 d2) = .nsF c d0 d1 d2

/-- R32, R45, R60: exactly the lists of four bytes decode, and every one of them does;
any other list is refused by name. -/
def Obligations.ExactlyFourBytesDecode : Prop :=
  ∀ bs : List Byte,
    (bs.length = 4 → ∃ i, decodeBytes bs = .ok i) ∧
    (bs.length ≠ 4 → decodeBytes bs = .error (.notFourBytes bs.length))

/-- U5 of spec/93: an argument of ENCODE wider than its field is refused; arguments that
fit give the packet whose event holds them. -/
def Obligations.WideEncodeArgumentsRefused : Prop :=
  ∀ a : EncodeArgs,
    (16 ≤ a.cin ∨ 16 ≤ a.cable ∨ 256 ≤ a.b0 ∨ 256 ≤ a.b1 ∨ 256 ≤ a.b2 →
      encodeArgs? a = none) ∧
    (a.cin < 16 → a.cable < 16 → a.b0 < 256 → a.b1 < 256 → a.b2 < 256 →
      ∃ p, encodeArgs? a = some p ∧ (decodeEvent p).cin.toNat = a.cin ∧
        (decodeEvent p).cable.toNat = a.cable ∧ (decodeEvent p).d0.toNat = a.b0 ∧
        (decodeEvent p).d1.toNat = a.b1 ∧ (decodeEvent p).d2.toNat = a.b2)

/-! ## The access primitives -/

/-- R39: Append stores one byte at index `rx_len` and raises `rx_len` by one while there
is room; otherwise it writes no byte, sets `rx_overflow`, and emits DIAG_OVERFLOW if the
flag was clear. -/
def Obligations.AppendStoresOrFlags : Prop :=
  ∀ (s : State) (b : Byte),
    (s.rxLen < s.cfg.cap →
      s.append b = { s with rxBuf := (s.append b).rxBuf, rxLen := s.rxLen + 1 } ∧
      ∀ a, KMap.read (s.append b).rxBuf a =
        if a = s.rxLen then some b else KMap.read s.rxBuf a) ∧
    (s.cfg.cap ≤ s.rxLen →
      s.append b = { s with
        rxOverflow := true
        diagOut := if s.rxOverflow then s.diagOut else s.diagOut ++ [.overflow] })

/-- R135, R40: a payload byte the requester writes is the one the logical sequence then
holds there, and no other position changes; and if the next TX_STEP is the one that reads it
(the cursor is at most two positions before it), the packet that step emits carries the new
byte, in the slot of its position. That the payload's memory is the requester's own, named by
`txPayRef`, is the model's choice (log 13). -/
def Obligations.LatePayloadWriteIsSent : Prop :=
  ∀ (s : State) (i : Nat) (b : Byte), s.txPayRef = .own → i < s.txLen →
    (s.writePay i b).seqByte (i + 1) = b ∧
    (∀ j, j ≠ i + 1 → (s.writePay i b).seqByte j = s.seqByte j) ∧
    (s.txState = .sending → s.txCursor ≤ i + 1 → i + 1 < s.txCursor + 3 →
      ∃ t p, txStep (s.writePay i b) = .next t ∧ t.txOut = s.txOut ++ [p] ∧
        (messageBytes (decode p))[i + 1 - s.txCursor]? = some b)

/-- R90, R40: a send of the reassembly buffer itself reads the result's own bytes: below
the length, position `i + 1` of the logical sequence is payload byte `i`, between 0xF0
and 0xF7. -/
def Obligations.EchoReadsTheResult : Prop :=
  ∀ (s : State) (cable : Nibble),
    (s.beginSend cable s.rxLen .rxBuf).logicalSequence = [0xF0#8] ++ s.rxPayload ++ [0xF7#8]

/-! ## The Reassembler: one statement per packet kind -/

/-- R72: SC in Idle starts a reassembly with `d1` and `d2`, in Accumulating it appends
all three bytes; both complete, and nothing else changes. -/
def Obligations.StartOrContinuePacket : Prop :=
  ∀ (cable : Nibble) (d0 d1 d2 : Byte) (s : State), s.txState = .idle →
    (s.rxState = .idle →
      ∃ t, exec (.sc cable d0 d1 d2) s = .next t ∧
        t = { s with
          rxState := .accumulating
          rxBuf := t.rxBuf
          rxLen := min 2 s.cfg.cap
          rxPolls := 0
          rxOverflow := decide (s.cfg.cap < 2)
          rxMalformed := false
          diagOut := s.diagOut ++ (if s.cfg.cap < 2 then [.overflow] else []) } ∧
        ∀ a, KMap.read t.rxBuf a =
          if a = 0 ∧ 0 < s.cfg.cap then some d1
          else if a = 1 ∧ 1 < s.cfg.cap then some d2
          else KMap.read s.rxBuf a) ∧
    (s.rxState = .accumulating → s.rxLen ≤ s.cfg.cap →
      ∃ t, exec (.sc cable d0 d1 d2) s = .next t ∧
        t = { s with
          rxBuf := t.rxBuf
          rxLen := min (s.rxLen + 3) s.cfg.cap
          rxPolls := 0
          rxOverflow := s.rxOverflow || decide (s.cfg.cap < s.rxLen + 3)
          diagOut := s.diagOut ++
            (if s.rxOverflow = false ∧ s.cfg.cap < s.rxLen + 3 then [.overflow] else []) } ∧
        ∀ a, KMap.read t.rxBuf a =
          if a = s.rxLen ∧ s.rxLen < s.cfg.cap then some d0
          else if a = s.rxLen + 1 ∧ s.rxLen + 1 < s.cfg.cap then some d1
          else if a = s.rxLen + 2 ∧ s.rxLen + 2 < s.cfg.cap then some d2
          else KMap.read s.rxBuf a)

/-- R73: E3 in Accumulating appends `d0` and `d1` and ends the message, discarded if
anything overflowed; in Idle its event is passed through. -/
def Obligations.EndThreeBytesPacket : Prop :=
  ∀ (cable : Nibble) (d0 d1 d2 : Byte) (s : State), s.txState = .idle →
    (s.rxState = .idle →
      exec (.e3 cable d0 d1 d2) s =
        .next { s with evtOut := s.evtOut ++ [⟨cable, 0x7#4, d0, d1, d2⟩] }) ∧
    (s.rxState = .accumulating → s.rxLen ≤ s.cfg.cap →
      ∃ t, exec (.e3 cable d0 d1 d2) s = .next t ∧
        t = { s with
          rxState := .done
          rxBuf := t.rxBuf
          rxLen := if s.rxOverflow = true ∨ s.cfg.cap < s.rxLen + 2 then 0 else s.rxLen + 2
          rxPolls := 0
          rxOverflow := s.rxOverflow || decide (s.cfg.cap < s.rxLen + 2)
          rxMalformed := false
          diagOut := s.diagOut ++
            (if s.rxOverflow = false ∧ s.cfg.cap < s.rxLen + 2 then [.overflow] else []) } ∧
        ∀ a, KMap.read t.rxBuf a =
          if a = s.rxLen ∧ s.rxLen < s.cfg.cap then some d0
          else if a = s.rxLen + 1 ∧ s.rxLen + 1 < s.cfg.cap then some d1
          else KMap.read s.rxBuf a)

/-- R74: E2 in Accumulating appends `d0` and ends the message, discarded if anything
overflowed; in Idle its event is passed through. -/
def Obligations.EndTwoBytesPacket : Prop :=
  ∀ (cable : Nibble) (d0 d1 d2 : Byte) (s : State), s.txState = .idle →
    (s.rxState = .idle →
      exec (.e2 cable d0 d1 d2) s =
        .next { s with evtOut := s.evtOut ++ [⟨cable, 0x6#4, d0, d1, d2⟩] }) ∧
    (s.rxState = .accumulating → s.rxLen ≤ s.cfg.cap →
      ∃ t, exec (.e2 cable d0 d1 d2) s = .next t ∧
        t = { s with
          rxState := .done
          rxBuf := t.rxBuf
          rxLen := if s.rxOverflow = true ∨ s.cfg.cap < s.rxLen + 1 then 0 else s.rxLen + 1
          rxPolls := 0
          rxOverflow := s.rxOverflow || decide (s.cfg.cap < s.rxLen + 1)
          rxMalformed := false
          diagOut := s.diagOut ++
            (if s.rxOverflow = false ∧ s.cfg.cap < s.rxLen + 1 then [.overflow] else []) } ∧
        ∀ a, KMap.read t.rxBuf a =
          if a = s.rxLen ∧ s.rxLen < s.cfg.cap then some d0 else KMap.read s.rxBuf a)

/-- R75: E1 in Accumulating appends nothing and ends the message, discarded if anything
had overflowed; in Idle its event is passed through. No byte of the buffer changes. -/
def Obligations.EndOneBytePacket : Prop :=
  ∀ (cable : Nibble) (d0 d1 d2 : Byte) (s : State), s.txState = .idle →
    (s.rxState = .idle →
      exec (.e1 cable d0 d1 d2) s =
        .next { s with evtOut := s.evtOut ++ [⟨cable, 0x5#4, d0, d1, d2⟩] }) ∧
    (s.rxState = .accumulating →
      exec (.e1 cable d0 d1 d2) s =
        .next { s with
          rxState := .done
          rxLen := if s.rxOverflow then 0 else s.rxLen
          rxPolls := 0
          rxMalformed := false })

/-- R76: each of the twelve other kinds is passed through in Idle, and in Accumulating
ends the reassembly as malformed, itself lost. No byte of the buffer changes. -/
def Obligations.NonSysExPacket : Prop :=
  ∀ (c : Nibble) (d0 d1 d2 : Byte) (s : State), s.txState = .idle →
    ∀ i ∈ [Instr.ns0 c d0 d1 d2, Instr.ns1 c d0 d1 d2, Instr.ns2 c d0 d1 d2,
        Instr.ns3 c d0 d1 d2, Instr.ns8 c d0 d1 d2, Instr.ns9 c d0 d1 d2,
        Instr.nsA c d0 d1 d2, Instr.nsB c d0 d1 d2, Instr.nsC c d0 d1 d2,
        Instr.nsD c d0 d1 d2, Instr.nsE c d0 d1 d2, Instr.nsF c d0 d1 d2],
      (s.rxState = .idle → exec i s = .next { s with evtOut := s.evtOut ++ [i.event] }) ∧
      (s.rxState = .accumulating →
        exec i s = .next { s with
          rxState := .done
          rxLen := 0
          rxPolls := 0
          rxMalformed := true
          diagOut := s.diagOut ++ [.malformed] })

/-- R70, R55: a packet answer is taken exactly in Idle and Accumulating with the
Fragmenter idle; otherwise the poll is not enabled and the step is refused. -/
def Obligations.PacketTakenIffPollEnabled : Prop :=
  ∀ (i : Instr) (s : State),
    ((s.rxState = .idle ∨ s.rxState = .accumulating) ∧ s.txState = .idle →
      ∃ t, exec i s = .next t) ∧
    (¬((s.rxState = .idle ∨ s.rxState = .accumulating) ∧ s.txState = .idle) →
      exec i s = .refused .rxPollNotEnabled)

/-- The frame of every packet kind (R35, R118: "`tx_*` state is never touched"): only the
reassembler's six elements, `evt_out` and `diag_out` can change. -/
def Obligations.PacketFrame : Prop :=
  ∀ (i : Instr) (s t : State), exec i s = .next t →
    t = { s with
      rxState := t.rxState
      rxBuf := t.rxBuf
      rxLen := t.rxLen
      rxPolls := t.rxPolls
      rxOverflow := t.rxOverflow
      rxMalformed := t.rxMalformed
      evtOut := t.evtOut
      diagOut := t.diagOut }

/-- R117: one packet answer raises at most one condition, and which one its kind says:
SC, E2, E3 can only overflow, another non-E1 kind can only be malformed, E1 raises
nothing. -/
def Obligations.AtMostOneConditionPerPacket : Prop :=
  ∀ (i : Instr) (s t : State), exec i s = .next t →
    t.diagOut = s.diagOut ∨
    (t.diagOut = s.diagOut ++ [.overflow] ∧
      i.event.cin ∈ [0x4#4, 0x6#4, 0x7#4]) ∨
    (t.diagOut = s.diagOut ++ [.malformed] ∧
      i.event.cin ∉ [0x4#4, 0x5#4, 0x6#4, 0x7#4])

/-- R81, R50: what the Reassembler never looks at. The cable index never matters to a
packet it takes, nor `d0` of a starting SC, nor the end slot and the unused slots of an
end packet, nor any field of a packet it drops as malformed. -/
def Obligations.UncheckedFieldsNeverMatter : Prop :=
  ∀ (s : State) (c c' : Nibble) (d0 d1 d2 e0 e1 e2 : Byte),
    (s.rxState = .idle → exec (.sc c d0 d1 d2) s = exec (.sc c' e0 d1 d2) s) ∧
    (s.rxState = .accumulating →
      exec (.sc c d0 d1 d2) s = exec (.sc c' d0 d1 d2) s ∧
      exec (.e3 c d0 d1 d2) s = exec (.e3 c' d0 d1 e2) s ∧
      exec (.e2 c d0 d1 d2) s = exec (.e2 c' d0 e1 e2) s ∧
      exec (.e1 c d0 d1 d2) s = exec (.e1 c' e0 e1 e2) s ∧
      exec (.ns0 c d0 d1 d2) s = exec (.nsF c' e0 e1 e2) s)

/-! ## Polls, the end of a message, release -/

/-- A poll that the transport answers with a packet runs the packet's instruction: the
packet is removed from RXSTREAM, the request is taken, device initialisation is over
(log 10), and the rest is `exec` (R70, R42). The same where the block polls by itself,
nothing being requested (R70, log 5). -/
def Obligations.StepRunsDecodedPacket : Prop :=
  ∀ (s : State) (p : Packet) (i : Instr) (as : List Answer),
    decodeBytes p.bytes = .ok i → s.rxStream = .packet p :: as →
    (∀ rs, s.requests = .rxPoll :: rs →
      step s = exec i { s with rxStream := as, requests := rs, initPhase := false }) ∧
    (s.unasked → s.txState = .idle → s.rxState = .idle ∨ s.rxState = .accumulating →
      step s = exec i { s with rxStream := as, initPhase := false })

/-- R71 and R77: the not-ready answer. In Idle nothing changes; in Accumulating the count goes
up by one, and on the `TIMEOUT_BUDGET`-th consecutive one the message is discarded and the
state is TimedOut. -/
def Obligations.NotReadyPoll : Prop :=
  ∀ s : State, s.txState = .idle →
    (s.rxState = .idle → notReady s = .next s) ∧
    (s.rxState = .accumulating → s.rxPolls + 1 < s.cfg.timeoutBudget →
      notReady s = .next { s with rxPolls := s.rxPolls + 1 }) ∧
    (s.rxState = .accumulating → s.cfg.timeoutBudget ≤ s.rxPolls + 1 →
      notReady s = .next { s with
        rxLen := 0, rxPolls := 0, rxState := .timedOut, diagOut := s.diagOut ++ [.timeout] })

/-- How a step comes to each operation, which is the model's choice (log 5): the next request
is performed; with none to come now, a send goes on, the block or its task loop polls in
Accumulating and in Idle, and where a result is held no operation is left (R143). A poll runs
the packet that is the next answer, and is the not-ready operation if the next answer is
not-ready or none is to come; device initialisation is then over (log 10). -/
def Obligations.StepPerformsRequest : Prop :=
  ∀ s : State,
    (∀ r rs, s.feedRequests.requests = r :: rs →
      step s = perform r { s.feedRequests with requests := rs }) ∧
    (s.feedRequests.requests = [] →
      (s.txState = .sending → step s = txStep s.feedRequests) ∧
      (s.txState = .idle → s.rxState = .idle ∨ s.rxState = .accumulating →
        step s = rxPoll s.feedRequests) ∧
      (s.txState = .idle → s.rxState = .done ∨ s.rxState = .timedOut →
        step s = .refused .resultHeld)) ∧
    (∀ p as, s.feedAnswers.rxStream = .packet p :: as →
      rxPoll s = exec (decode p) { s.feedAnswers with rxStream := as, initPhase := false }) ∧
    (∀ as, s.feedAnswers.rxStream = .notReady :: as ∨ (s.feedAnswers.rxStream = [] ∧ as = []) →
      rxPoll s = notReady { s.feedAnswers with rxStream := as, initPhase := false })

/-- What comes next from the environment, which is the model's choice (log 5): what is listed
comes first, and nothing changes; after that the answers, and the requests, that repeat come
over and over, and nothing where there are none; free ones are drawn one after another, each
once. -/
def Obligations.EnvironmentFeeds : Prop :=
  ∀ s : State,
    (∀ a as, s.rxStream = a :: as → s.feedAnswers = s) ∧
    (∀ again, s.rxStream = [] → s.answersAfter = .repeats again →
      s.feedAnswers = { s with rxStream := again }) ∧
    (∀ n, s.rxStream = [] → s.answersAfter = .free n →
      ∃ a, s.feedAnswers = { s with rxStream := [a], answersAfter := .free (n + 1) } ∧
        ((∃ p, Config.freeAnswer n = some p ∧ a = .packet p) ∨
          (Config.freeAnswer n = none ∧ a = .notReady))) ∧
    (∀ r rs, s.requests = r :: rs → s.feedRequests = s) ∧
    (∀ again, s.requests = [] → s.requestsAfter = .repeats again →
      s.feedRequests = { s with requests := again }) ∧
    (∀ n, s.requests = [] → s.requestsAfter = .free n →
      s.feedRequests = { s with
        requests := (Config.freeRequest n).toList, requestsAfter := .free (n + 1) })

/-- R78: EndMessage(m). -/
def Obligations.EndMessageEffect : Prop :=
  ∀ (s : State) (m : Bool),
    s.endMessage m = { s with
      rxMalformed := m
      diagOut := if m = true then s.diagOut ++ [.malformed] else s.diagOut
      rxLen := if m = true ∨ s.rxOverflow = true then 0 else s.rxLen
      rxPolls := 0
      rxState := .done }

/-- R118: what each condition of the block changes, exactly: its table's four rows. -/
def Obligations.ConditionEntryTable : Prop :=
  ∀ s : State,
    s.raise .timeout = { s with
      rxState := .timedOut, rxLen := 0, rxPolls := 0, diagOut := s.diagOut ++ [.timeout] } ∧
    s.raise .malformedContinuation = { s with
      rxState := .done, rxLen := 0, rxPolls := 0, rxMalformed := true
      diagOut := s.diagOut ++ [.malformed] } ∧
    s.raise .bufferOverflow = { s with
      rxOverflow := true
      diagOut := if s.rxOverflow then s.diagOut else s.diagOut ++ [.overflow] } ∧
    (s.rxOverflow = true →
      s.endMessage false = { s with
        rxState := .done, rxLen := 0, rxPolls := 0, rxMalformed := false } ∧
      (s.endMessage true).rxLen = 0 ∧ (s.endMessage true).rxOverflow = true ∧
      (s.raise .timeout).rxLen = 0 ∧ (s.raise .timeout).rxOverflow = true)

/-- R79: RX_RELEASE in a result state with the Fragmenter idle sets `rx_state` to Idle and
changes nothing else; otherwise it is not enabled. -/
def Obligations.ReleaseRestoresIdle : Prop :=
  ∀ s : State,
    ((s.rxState = .done ∨ s.rxState = .timedOut) ∧ s.txState = .idle →
      rxRelease s = .next { s with rxState := .idle }) ∧
    (¬((s.rxState = .done ∨ s.rxState = .timedOut) ∧ s.txState = .idle) →
      rxRelease s = .refused .rxReleaseNotEnabled)

/-- R134, R70, R92: while Accumulating every request but RX_POLL and RESET is refused, and
while TxSending every request but TX_STEP and RESET; a write of the requester to its own
memory is no operation of the block. -/
def Obligations.BusyBlockRefusesOthers : Prop :=
  ∀ (s : State) (r : Request) (rs : List Request),
    s.feedRequests.requests = r :: rs → r ≠ .reset →
    (∀ i b, r ≠ .payWrite i b) →
    (s.rxState = .accumulating → s.txState = .idle → r ≠ .rxPoll →
      ∃ why, step s = .refused why) ∧
    (s.txState = .sending → r ≠ .txStep → ∃ why, step s = .refused why)

/-- R12, R82(a), R119: the transitions of `rx_state`. From Accumulating only to Done or
TimedOut, from a result state only to Idle and only by RX_RELEASE, from Idle only to
Accumulating; RESET apart. -/
def Obligations.ReassemblerTransitions : Prop :=
  ∀ s t : State, step s = .next t → s.feedRequests.requests.head? ≠ some .reset →
    (s.rxState = .idle → t.rxState = .idle ∨ t.rxState = .accumulating) ∧
    (s.rxState = .accumulating → t.rxState ≠ .idle) ∧
    (s.rxState = .done → t.rxState = .done ∨
      (t.rxState = .idle ∧ s.feedRequests.requests.head? = some .rxRelease)) ∧
    (s.rxState = .timedOut → t.rxState = .timedOut ∨
      (t.rxState = .idle ∧ s.feedRequests.requests.head? = some .rxRelease))

/-- R35, R80, R132: in a result state the buffer, the length and the flags are stable
under every step but RESET; and whatever the state, a step that is neither a poll nor a
RESET changes none of them. -/
def Obligations.ResultStableUntilNextPoll : Prop :=
  ∀ s t : State, step s = .next t → s.feedRequests.requests.head? ≠ some .reset →
    s.rxState = .done ∨ s.rxState = .timedOut ∨ s.txState = .sending ∨
      (∃ r rs, s.feedRequests.requests = r :: rs ∧ r ≠ .rxPoll) →
    t.rxBuf = s.rxBuf ∧ t.rxLen = s.rxLen ∧ t.rxOverflow = s.rxOverflow ∧
      t.rxMalformed = s.rxMalformed

/-- R42, R38: each answer is taken once. A poll, requested or the block's own, takes exactly
the next answer to come, and leaves every other; every other step takes none: another request,
or the block's own TX_STEP. -/
def Obligations.EachAnswerConsumedOnce : Prop :=
  ∀ s t : State, step s = .next t →
    ((∃ rs, s.feedRequests.requests = .rxPoll :: rs) ∨
        (s.feedRequests.requests = [] ∧ s.txState = .idle) →
      t.rxStream = s.feedAnswers.rxStream.tail ∧
        t.answersAfter = s.feedAnswers.answersAfter) ∧
    ((∃ r rs, s.feedRequests.requests = r :: rs ∧ r ≠ .rxPoll) ∨
        (s.feedRequests.requests = [] ∧ s.txState = .sending) →
      t.rxStream = s.rxStream ∧ t.answersAfter = s.answersAfter)

/-- R22: the three output traces only grow, RESET apart. -/
def Obligations.TracesOnlyGrow : Prop :=
  ∀ s t : State, step s = .next t → s.feedRequests.requests.head? ≠ some .reset →
    s.txOut <+: t.txOut ∧ s.evtOut <+: t.evtOut ∧ s.diagOut <+: t.diagOut

/-- R6, R23: no step writes the configuration. -/
def Obligations.ConfigurationNeverChanges : Prop :=
  ∀ s t : State, step s = .next t → t.cfg = s.cfg

/-! ## The Fragmenter -/

/-- R90: TX_START latches the request, from a state in which it is enabled, and emits
nothing; otherwise it is not enabled. That the payload's memory is named by `txPayRef` is
the model's choice (log 13). -/
def Obligations.StartSendLatches : Prop :=
  ∀ (s : State) (cable : Nibble) (len : Nat) (ref : PayRef),
    (s.txState = .idle → s.rxState ≠ .accumulating →
      txStart cable len ref s = .next { s with
        txCable := cable
        txLen := len
        txCursor := 0
        txState := .sending
        txPayRef := ref }) ∧
    (s.txState = .sending ∨ s.rxState = .accumulating →
      txStart cable len ref s = .refused .txStartNotEnabled)

/-- R92: TX_STEP emits the next packet of the current message: SC with three bytes while
more than three remain, else the end packet of the three, two or one that remain, PAD in
the unused slots. While TxSending it is the only enabled operation besides RESET; in TxIdle
it is not enabled. That `tx_cursor` is below `tx_len + 2` is R94's invariant. That REGISTER and
DISPATCH, software outside the block, count among the operations refused is the model's reading
(DEDUCED, log 11); the requester's write to its own memory, exempt here, is no operation of R55
and the model's choice (log 4). -/
def Obligations.SendStepEmitsPacket : Prop :=
  ∀ s : State,
    (s.txState = .sending → s.txCursor < s.txLen + 2 →
      (3 < s.txLen + 2 - s.txCursor →
        txStep s = .next { s with
          txOut := s.txOut ++ [encodePacket 0x4#4 s.txCable (s.seqByte s.txCursor)
            (s.seqByte (s.txCursor + 1)) (s.seqByte (s.txCursor + 2))]
          txCursor := s.txCursor + 3 }) ∧
      (s.txLen + 2 - s.txCursor = 3 →
        txStep s = .next { s with
          txOut := s.txOut ++ [encodePacket 0x7#4 s.txCable (s.seqByte s.txCursor)
            (s.seqByte (s.txCursor + 1)) (s.seqByte (s.txCursor + 2))]
          txCursor := s.txLen + 2
          txState := .idle }) ∧
      (s.txLen + 2 - s.txCursor = 2 →
        txStep s = .next { s with
          txOut := s.txOut ++ [encodePacket 0x6#4 s.txCable (s.seqByte s.txCursor)
            (s.seqByte (s.txCursor + 1)) 0x00#8]
          txCursor := s.txLen + 2
          txState := .idle }) ∧
      (s.txLen + 2 - s.txCursor = 1 →
        txStep s = .next { s with
          txOut := s.txOut ++ [encodePacket 0x5#4 s.txCable (s.seqByte s.txCursor)
            0x00#8 0x00#8]
          txCursor := s.txLen + 2
          txState := .idle })) ∧
    (s.txState = .sending → ∀ r : Request, r ≠ .txStep → r ≠ .reset →
      (∀ i b, r ≠ .payWrite i b) → ∃ why, perform r s = .refused why) ∧
    (s.txState = .idle → txStep s = .refused .txStepNotEnabled)

/-- R93, R94: a message of `L` payload bytes ends after exactly `floor((L + 4) / 3)`
steps, none of which it can end before; its packets are that many, all SC but the last,
whose kind `L mod 3` gives; and the message bytes they carry, in order, are exactly the
logical sequence. Nothing being requested, each step is the block's own TX_STEP (log 5), and
every send completes (log 7). -/
def Obligations.MessageIsSentWhole : Prop :=
  ∀ s : State, s.unasked → s.txState = .sending → s.txCursor = 0 →
    (∀ k, k < (s.txLen + 4) / 3 → ∃ u, core.run k s = .next u ∧ u.txState = .sending) ∧
    ∃ (t : State) (ps : List Packet) (last : Packet),
      core.run ((s.txLen + 4) / 3) s = .next t ∧
      t = { s with
        txState := .idle, txCursor := s.txLen + 2, txOut := s.txOut ++ (ps ++ [last]) } ∧
      (ps ++ [last]).length = (s.txLen + 4) / 3 ∧
      (∀ p ∈ ps, lowNibble p.b0 = 0x4#4) ∧
      (∀ p ∈ ps ++ [last], highNibble p.b0 = s.txCable) ∧
      lowNibble last.b0 =
        (if s.txLen % 3 = 0 then 0x6#4 else if s.txLen % 3 = 1 then 0x7#4 else 0x5#4) ∧
      (ps ++ [last]).flatMap (fun p => messageBytes (decode p)) = s.logicalSequence

/-! ## RESET -/

/-- R28: the reset value of every element of the block and of its traces, for every
configuration; no byte of the buffer is known (it is the free value of log 3). -/
def Obligations.ResetValues : Prop :=
  ∀ s : State, (s = State.reset ∨ ∃ c, s = State.resetOf c) →
    s.rxState = .idle ∧ (∀ i, s.rxByte i = Config.freeRxByte s.resets i) ∧ s.rxLen = 0 ∧
    s.rxPolls = 0 ∧ s.rxOverflow = false ∧ s.rxMalformed = false ∧ s.txState = .idle ∧
    s.txCursor = 0 ∧ s.txLen = 0 ∧ s.txCable = 0#4 ∧ s.txOut = [] ∧ s.evtOut = [] ∧
    s.diagOut = [] ∧ s.cmdTable = []

/-- R130: RESET is enabled in every state and gives every element its reset value; the
buffer's bytes are drawn afresh (by the count of resets, log 3), and the traces start empty,
so no diagnostic and no end packet goes out. The configuration is kept (log 14). -/
def Obligations.ResetFromAnyState : Prop :=
  ∀ s : State, ∃ t, perform .reset s = .next t ∧
    t.rxState = .idle ∧ t.rxLen = 0 ∧ t.rxPolls = 0 ∧ t.rxOverflow = false ∧
    t.rxMalformed = false ∧ t.txState = .idle ∧ t.txCursor = 0 ∧ t.txLen = 0 ∧
    t.txCable = 0#4 ∧ t.txOut = [] ∧ t.evtOut = [] ∧ t.diagOut = [] ∧ t.cmdTable = [] ∧
    (∀ i, t.rxByte i = Config.freeRxByte (s.resets + 1) i) ∧ t.cfg = s.cfg

/-! ## The Command Dispatcher (outside the block) -/

/-- R102's effect: a listed code gets the new callback in place, a new one takes a slot
while there is one, and otherwise the registration is rejected with REG_FULL and the
table is unchanged. Nothing else changes. -/
def Obligations.RegistrationLastWinsOrFull : Prop :=
  ∀ (s : State) (k : Byte) (cb : Callback),
    ((KMap.read s.cmdTable k.toNat).isSome ∨ s.cmdTable.length < s.cfg.cmdMax →
      s.registerCommand k cb = { s with
        cmdTable := (s.registerCommand k cb).cmdTable, regOut := s.regOut ++ [.ok] } ∧
      ∀ x : Byte, KMap.read (s.registerCommand k cb).cmdTable x.toNat =
        if x = k then some cb else KMap.read s.cmdTable x.toNat) ∧
    (KMap.read s.cmdTable k.toNat = none → s.cfg.cmdMax ≤ s.cmdTable.length →
      s.registerCommand k cb = { s with regOut := s.regOut ++ [.regFull] })

/-- REGISTER as a step: during device initialisation, with neither a send nor a
reassembly in progress, it has R102's effect; otherwise it is refused. When device
initialisation ends and the last two conditions are the model's reading (logs 10, 11). -/
def Obligations.RegisterOnlyDuringInit : Prop :=
  ∀ (s : State) (k : Byte) (cb : Callback) (rs : List Request),
    s.feedRequests.requests = .register k cb :: rs →
    (s.initPhase = true → s.txState = .idle → s.rxState ≠ .accumulating →
      step s = .next ({ s.feedRequests with requests := rs }.registerCommand k cb)) ∧
    (s.initPhase = false ∨ s.txState = .sending ∨ s.rxState = .accumulating →
      step s = .refused .registerNotEnabled)

/-- R101, R131: once device initialisation is over, no step but RESET changes the command
table, and no step but RESET begins it again. When it is over is the model's reading
(log 10). -/
def Obligations.CommandTableFixedAfterInit : Prop :=
  ∀ s t : State, step s = .next t → s.feedRequests.requests.head? ≠ some .reset → s.initPhase = false →
    t.cmdTable = s.cmdTable ∧ t.initPhase = false

/-- R103: a callback fires if and only if the payload starts with the identifier and a
registered command byte; it is that command's callback and gets the bytes after the
command byte. A payload shorter than two bytes, or not addressed, or with an unknown
command, is discarded under the condition R110 names. -/
def Obligations.DispatchIffAddressedAndRegistered : Prop :=
  ∀ (ident : Byte) (table : KMap Callback) (payload : List Byte),
    (∀ cb args, route ident table payload = .invoked ⟨cb, args⟩ ↔
      ∃ k, payload = ident :: k :: args ∧ KMap.read table k.toNat = some cb) ∧
    (route ident table payload = .raised .unaddressedMessage ↔
      payload.length < 2 ∨ payload.head? ≠ some ident) ∧
    (route ident table payload = .raised .unknownCommand ↔
      ∃ k args, payload = ident :: k :: args ∧ KMap.read table k.toNat = none)

/-- R100, R104: DISPATCH as a step, in Done with the Fragmenter idle (log 11), changes
nothing but the invocations, and otherwise is not enabled; a discarded message (either flag
set) invokes nothing. -/
def Obligations.DiscardedMessageNeverDispatched : Prop :=
  ∀ (s : State) (rs : List Request), s.feedRequests.requests = .dispatch :: rs →
    (s.rxState = .done → s.txState = .idle →
      ∃ calls, step s = .next { s.feedRequests with
          requests := rs, callOut := s.callOut ++ calls } ∧
        (∀ c, calls = [c] ↔
          route s.cfg.ident s.cmdTable s.rxPayload = .invoked c) ∧
        calls.length ≤ 1 ∧
        (Sound s → s.rxOverflow = true ∨ s.rxMalformed = true → calls = [])) ∧
    (s.rxState ≠ .done ∨ s.txState = .sending → step s = .refused .dispatchNotEnabled)

/-! ## Whole-machine properties -/

/-- The invariant of R14 to R19, R36, R82(c) and (e), R94 and R101 holds right after
reset, for every legal configuration and for the device behind `State.reset`. -/
def Obligations.ResetMeetsInvariant : Prop :=
  Sound State.reset ∧ ∀ c : Config, c.wf = true → Sound (State.resetOf c)

/-- Every step keeps it, from every state that meets it. -/
def Obligations.StepKeepsInvariant : Prop :=
  ∀ s t : State, Sound s → step s = .next t → Sound t

/-- R13, R35, R28: the bytes of `rx_buf` at or above `rx_len` are never exposed. Two
states that differ in them alone step alike, to states that differ in such bytes alone,
as long as the requester does not send more of the buffer than the result holds. -/
def Obligations.HiddenBufferBytesNeverMatter : Prop :=
  ∀ s t : State, sameExposed s t →
    (s.txState = .sending → s.txPayRef = .rxBuf → s.txLen ≤ s.rxLen) →
    (∀ s', step s = .next s' → ∃ t', step t = .next t' ∧ sameExposed s' t') ∧
    (∀ why, step s = .refused why → step t = .refused why)

/-- S6, R77, R111: `TIMEOUT_BUDGET` consecutive not-ready polls end a reassembly in
TimedOut with length 0 and one diagnostic, and no fewer do. Nothing being requested, each
step is the block's own poll (log 5), after which device initialisation is over (log 10). -/
def Obligations.TimeoutAfterExactlyBudget : Prop :=
  ∀ (s : State) (rest : List Answer), s.unasked → s.rxState = .accumulating →
    s.txState = .idle → s.rxPolls = 0 → 1 ≤ s.cfg.timeoutBudget →
    s.rxStream = List.replicate s.cfg.timeoutBudget .notReady ++ rest →
    (∀ k, k < s.cfg.timeoutBudget →
      ∃ u, core.run k s = .next u ∧ u.rxState = .accumulating ∧ u.rxLen = s.rxLen) ∧
    core.run s.cfg.timeoutBudget s = .next { s with
      rxState := .timedOut
      rxLen := 0
      rxPolls := 0
      diagOut := s.diagOut ++ [.timeout]
      rxStream := rest
      initPhase := false }

/-- R82(b): a reassembly may last for ever: SC packets alone, however many, never end it. -/
def Obligations.EndlessContinuationNeverEnds : Prop :=
  ∀ (s : State) (ps : List Packet) (rest : List Answer), s.unasked →
    s.rxState = .accumulating → s.txState = .idle →
    (∀ p ∈ ps, lowNibble p.b0 = 0x4#4) → s.rxStream = ps.map .packet ++ rest →
    ∃ t, core.run ps.length s = .next t ∧ t.rxState = .accumulating ∧ t.rxStream = rest

/-- R82(b), R143, U17: the two infinite runs. A sender that never ends its message: where the
answers to come are SC packets for ever, a block in Accumulating takes as many steps as one
likes and is in Accumulating still. The task loop polling for ever: where no answer to come is
an SC packet, a block in Idle does and is in Idle still. Nothing is requested (log 5). -/
def Obligations.InfiniteRunsAdmitted : Prop :=
  ∀ (s : State) (again : List Answer), s.unasked → s.txState = .idle →
    s.answersAfter = .repeats again →
    (s.rxState = .accumulating → again ≠ [] →
      (∀ a ∈ s.rxStream ++ again, ∃ p, a = .packet p ∧ lowNibble p.b0 = 0x4#4) →
      ∀ k, ∃ t, core.run k s = .next t ∧ t.rxState = .accumulating) ∧
    (s.rxState = .idle →
      (∀ a ∈ s.rxStream ++ again, ∀ p, a = .packet p → lowNibble p.b0 ≠ 0x4#4) →
      ∀ k, ∃ t, core.run k s = .next t ∧ t.rxState = .idle)

/-- R82(d), R139: an Idle block to which the transport delivers a legal continuation
sequence, with fewer than `TIMEOUT_BUDGET` not-ready answers before each packet after the
first, ends in Done. A payload that fits is received intact, with its exact length and no
flag; a longer one is discarded with `rx_overflow`, the buffer holding its first `CAP`
bytes. Nothing is sent and no event is passed on. Nothing is requested (log 5), and device
initialisation is over after the first poll (log 10). -/
def Obligations.LegalSequenceReceived : Prop :=
  ∀ (s : State) (q : LegalSequence) (gs : List (Nat × Packet)) (rest : List Answer),
    q.wf = true → s.unasked → s.rxState = .idle → s.txState = .idle →
    gs.map Prod.snd = q.packets → (∀ g ∈ gs.tail, g.1 < s.cfg.timeoutBudget) →
    s.rxStream = deliver gs ++ rest →
    ∃ t, core.run (deliver gs).length s = .next t ∧
      t = { s with
        rxState := .done, rxBuf := t.rxBuf, rxLen := t.rxLen, rxPolls := 0
        rxOverflow := t.rxOverflow, rxMalformed := false, diagOut := t.diagOut
        rxStream := rest, initPhase := false } ∧
      (q.payload.length ≤ s.cfg.cap →
        t.rxLen = q.payload.length ∧ t.rxPayload = q.payload ∧ t.rxOverflow = false ∧
        t.diagOut = s.diagOut) ∧
      (s.cfg.cap < q.payload.length →
        t.rxLen = 0 ∧ t.rxOverflow = true ∧ t.diagOut = s.diagOut ++ [.overflow] ∧
        ∀ i, i < s.cfg.cap → KMap.read t.rxBuf i = q.payload[i]?)

/-- R82(f), C2: the round trip. What the Fragmenter of one block emits for a payload of
`L` bytes, `2 <= L <= CAP`, any cable, delivered to an Idle block with fewer than
`TIMEOUT_BUDGET` not-ready answers before each packet after the first, is received as
exactly that payload. Nothing is requested of either (log 5), and every send completes
(log 7). -/
def Obligations.FragmentThenReassemble : Prop :=
  ∀ s : State, s.unasked → s.txState = .sending → s.txCursor = 0 → 2 ≤ s.txLen →
    ∃ (s' : State) (ps : List Packet),
      core.run ((s.txLen + 4) / 3) s = .next s' ∧ s'.txOut = s.txOut ++ ps ∧
      ∀ (r : State) (gs : List (Nat × Packet)) (rest : List Answer),
        r.unasked → r.rxState = .idle → r.txState = .idle → s.txLen ≤ r.cfg.cap →
        gs.map Prod.snd = ps → (∀ g ∈ gs.tail, g.1 < r.cfg.timeoutBudget) →
        r.rxStream = deliver gs ++ rest →
        ∃ t, core.run (deliver gs).length r = .next t ∧ t.rxState = .done ∧
          t.rxLen = s.txLen ∧ t.rxPayload = (List.range s.txLen).map s.payByte ∧
          t.rxOverflow = false ∧ t.rxMalformed = false
end

