-- ==== Sys2Proof/Laws/Decode.lean ====
section
/-!
SUPPORT. The laws of the codec's parts: the two nibbles of a header byte
(30_encoding.md R47), and that classification by code index (R55) loses nothing.
-/
namespace Sys2Proof

@[simp] theorem lowNibble_append (cable cin : Nibble) : lowNibble (cable ++ cin) = cin := by
  unfold lowNibble; revert cable cin; decide

@[simp] theorem highNibble_append (cable cin : Nibble) : highNibble (cable ++ cin) = cable := by
  unfold highNibble; revert cable cin; decide

@[simp] theorem highNibble_append_lowNibble (b : Byte) : highNibble b ++ lowNibble b = b := by
  unfold lowNibble highNibble; revert b; decide

/-- The sixteen code indices (R48, R52). -/
theorem nibble_cases (c : Nibble) :
    c = 0x0#4 ∨ c = 0x1#4 ∨ c = 0x2#4 ∨ c = 0x3#4 ∨ c = 0x4#4 ∨ c = 0x5#4 ∨ c = 0x6#4 ∨
    c = 0x7#4 ∨ c = 0x8#4 ∨ c = 0x9#4 ∨ c = 0xA#4 ∨ c = 0xB#4 ∨ c = 0xC#4 ∨ c = 0xD#4 ∨
    c = 0xE#4 ∨ c = 0xF#4 := by revert c; decide

/-- Classification keeps the whole event: no code index falls to a neighbour's kind. -/
theorem classify_event (ev : Event) : (classify ev).event = ev := by
  obtain ⟨cable, cin, d0, d1, d2⟩ := ev
  rcases nibble_cases cin with h | h | h | h | h | h | h | h | h | h | h | h | h | h | h | h <;>
    subst h <;> rfl

/-- An instruction's own event classifies to it. -/
theorem event_classify (i : Instr) : classify i.event = i := by cases i <;> rfl

end Sys2Proof
end

