-- ==== Sys2Proof/Laws/Map.lean ====
section
/-!
SUPPORT. The laws of KMap: read after write, and that a write keeps the canonical form.
-/
namespace Sys2Proof.Machine

variable {α : Type}

@[simp] theorem KMap.read_nil (a : Nat) : KMap.read ([] : KMap α) a = none := rfl

theorem KMap.read_cons (k : Nat) (v : α) (m : KMap α) (a : Nat) :
    KMap.read ((k, v) :: m) a = if a = k then some v else KMap.read m a := rfl

/-- A read at the written key gives the value written; a read elsewhere what it gave. -/
theorem KMap.read_write (m : KMap α) (a : Nat) (b : α) (x : Nat) :
    KMap.read (KMap.write m a b) x = if x = a then some b else KMap.read m x := by
  induction m with
  | nil => rfl
  | cons c m ih =>
    obtain ⟨k, v⟩ := c
    unfold KMap.write
    split
    · simp only [KMap.read_cons]
    · split
      · subst a; simp only [KMap.read_cons]; split <;> simp_all
      · simp only [KMap.read_cons, ih]
        by_cases hx : x = k
        · subst hx; simp [Ne.symm ‹¬a = _›]
        · simp [hx]

theorem KMap.mem_write (m : KMap α) (a : Nat) (b : α) (c : Nat × α)
    (h : c ∈ KMap.write m a b) : c = (a, b) ∨ c ∈ m := by
  induction m with
  | nil => simpa [KMap.write] using h
  | cons d m ih =>
    obtain ⟨k, v⟩ := d
    unfold KMap.write at h
    split at h
    · simpa using h
    · split at h
      · rcases List.mem_cons.mp h with h | h
        · exact .inl h
        · exact .inr (List.mem_cons_of_mem _ h)
      · rcases List.mem_cons.mp h with h | h
        · exact .inr (h ▸ List.mem_cons_self)
        · exact (ih h).imp_right (List.mem_cons_of_mem _)

/-- A write keeps the canonical form. -/
theorem KMap.wf_write (m : KMap α) (a : Nat) (b : α) (h : KMap.wf m) :
    KMap.wf (KMap.write m a b) := by
  induction m with
  | nil => simp [KMap.write, KMap.wf]
  | cons d m ih =>
    obtain ⟨k, v⟩ := d
    obtain ⟨hk, hm⟩ := List.pairwise_cons.mp h
    unfold KMap.write
    split
    next hak =>
      refine List.pairwise_cons.mpr ⟨fun c hc => ?_, h⟩
      rcases List.mem_cons.mp hc with rfl | hc
      · exact hak
      · exact hak.trans (hk c hc)
    next hak =>
      split
      next he => subst he; exact List.pairwise_cons.mpr ⟨hk, hm⟩
      next he =>
        refine List.pairwise_cons.mpr ⟨fun c hc => ?_, ih hm⟩
        rcases KMap.mem_write m a b c hc with rfl | hc
        · exact Nat.lt_of_le_of_ne (Nat.le_of_not_lt hak) (Ne.symm he)
        · exact hk c hc

/-- Nothing is listed below the first key of a map in canonical form. -/
theorem KMap.read_none_of_lt (m : KMap α) (a : Nat) (h : ∀ c ∈ m, a < c.1) :
    KMap.read m a = none := by
  induction m with
  | nil => rfl
  | cons c m ih =>
    obtain ⟨k, v⟩ := c
    have hk := h (k, v) List.mem_cons_self
    rw [KMap.read_cons, if_neg (by simpa using Nat.ne_of_lt hk)]
    exact ih fun c hc => h c (List.mem_cons_of_mem _ hc)

/-- Writing a new key adds one entry, writing a listed key none. -/
theorem KMap.length_write (m : KMap α) (a : Nat) (b : α) (h : KMap.wf m) :
    (KMap.write m a b).length =
      if (KMap.read m a).isSome then m.length else m.length + 1 := by
  induction m with
  | nil => rfl
  | cons d m ih =>
    obtain ⟨k, v⟩ := d
    obtain ⟨hk, hm⟩ := List.pairwise_cons.mp h
    unfold KMap.write
    rw [KMap.read_cons]
    split
    next hak =>
      have : KMap.read m a = none :=
        KMap.read_none_of_lt m a fun c hc => hak.trans (hk c hc)
      simp [Nat.ne_of_lt hak, this]
    next hak =>
      split
      next he => simp
      next he => rw [List.length_cons, ih hm]; split <;> simp_all

/-- Two maps in canonical form that read alike are equal. -/
theorem KMap.ext_of_read : ∀ (m n : KMap α), KMap.wf m → KMap.wf n →
    (∀ a, KMap.read m a = KMap.read n a) → m = n
  | [], [], _, _, _ => rfl
  | [], (k, v) :: n, _, _, h => by simpa [KMap.read_cons] using h k
  | (k, v) :: m, [], _, _, h => by simpa [KMap.read_cons] using h k
  | (k, v) :: m, (l, w) :: n, hm, hn, h => by
    obtain ⟨hk, hm'⟩ := List.pairwise_cons.mp hm
    obtain ⟨hl, hn'⟩ := List.pairwise_cons.mp hn
    have hkl : k = l := by
      rcases Nat.lt_trichotomy k l with hlt | he | hlt
      · have h1 := h k
        rw [KMap.read_cons, if_pos rfl, KMap.read_cons, if_neg (Nat.ne_of_lt hlt),
          KMap.read_none_of_lt n k fun c hc => hlt.trans (hl c hc)] at h1
        cases h1
      · exact he
      · have h1 := h l
        rw [KMap.read_cons, if_neg (Nat.ne_of_lt hlt),
          KMap.read_none_of_lt m l fun c hc => hlt.trans (hk c hc), KMap.read_cons,
          if_pos rfl] at h1
        cases h1
    subst hkl
    have hv : v = w := by simpa [KMap.read_cons] using h k
    subst hv
    refine congrArg _ (KMap.ext_of_read m n hm' hn' fun a => ?_)
    by_cases ha : a = k
    · subst ha
      rw [KMap.read_none_of_lt m a hk, KMap.read_none_of_lt n a hl]
    · simpa [KMap.read_cons, ha] using h a

end Sys2Proof.Machine
end

