-- ==== Sys2Proof/Laws/State.lean ====
section
/-!
SUPPORT. One lemma per field per update of the state, so that no later proof unfolds a
record update.
-/
namespace Sys2Proof.Machine

/-! setRxState -/
@[simp] theorem State.setRxState_cfg (s : State) (v : RxState) : (s.setRxState v).cfg = s.cfg := rfl
@[simp] theorem State.setRxState_rxState (s : State) (v : RxState) :
    (s.setRxState v).rxState = v := rfl
@[simp] theorem State.setRxState_rxBuf (s : State) (v : RxState) :
    (s.setRxState v).rxBuf = s.rxBuf := rfl
@[simp] theorem State.setRxState_rxLen (s : State) (v : RxState) :
    (s.setRxState v).rxLen = s.rxLen := rfl
@[simp] theorem State.setRxState_rxPolls (s : State) (v : RxState) :
    (s.setRxState v).rxPolls = s.rxPolls := rfl
@[simp] theorem State.setRxState_rxOverflow (s : State) (v : RxState) :
    (s.setRxState v).rxOverflow = s.rxOverflow := rfl
@[simp] theorem State.setRxState_rxMalformed (s : State) (v : RxState) :
    (s.setRxState v).rxMalformed = s.rxMalformed := rfl
@[simp] theorem State.setRxState_txState (s : State) (v : RxState) :
    (s.setRxState v).txState = s.txState := rfl
@[simp] theorem State.setRxState_txCursor (s : State) (v : RxState) :
    (s.setRxState v).txCursor = s.txCursor := rfl
@[simp] theorem State.setRxState_txLen (s : State) (v : RxState) :
    (s.setRxState v).txLen = s.txLen := rfl
@[simp] theorem State.setRxState_txCable (s : State) (v : RxState) :
    (s.setRxState v).txCable = s.txCable := rfl
@[simp] theorem State.setRxState_txPayRef (s : State) (v : RxState) :
    (s.setRxState v).txPayRef = s.txPayRef := rfl
@[simp] theorem State.setRxState_txPay (s : State) (v : RxState) :
    (s.setRxState v).txPay = s.txPay := rfl
@[simp] theorem State.setRxState_txOut (s : State) (v : RxState) :
    (s.setRxState v).txOut = s.txOut := rfl
@[simp] theorem State.setRxState_evtOut (s : State) (v : RxState) :
    (s.setRxState v).evtOut = s.evtOut := rfl
@[simp] theorem State.setRxState_diagOut (s : State) (v : RxState) :
    (s.setRxState v).diagOut = s.diagOut := rfl
@[simp] theorem State.setRxState_rxStream (s : State) (v : RxState) :
    (s.setRxState v).rxStream = s.rxStream := rfl
@[simp] theorem State.setRxState_answersAfter (s : State) (v : RxState) :
    (s.setRxState v).answersAfter = s.answersAfter := rfl
@[simp] theorem State.setRxState_requests (s : State) (v : RxState) :
    (s.setRxState v).requests = s.requests := rfl
@[simp] theorem State.setRxState_requestsAfter (s : State) (v : RxState) :
    (s.setRxState v).requestsAfter = s.requestsAfter := rfl
@[simp] theorem State.setRxState_cmdTable (s : State) (v : RxState) :
    (s.setRxState v).cmdTable = s.cmdTable := rfl
@[simp] theorem State.setRxState_initPhase (s : State) (v : RxState) :
    (s.setRxState v).initPhase = s.initPhase := rfl
@[simp] theorem State.setRxState_regOut (s : State) (v : RxState) :
    (s.setRxState v).regOut = s.regOut := rfl
@[simp] theorem State.setRxState_callOut (s : State) (v : RxState) :
    (s.setRxState v).callOut = s.callOut := rfl
@[simp] theorem State.setRxState_resets (s : State) (v : RxState) :
    (s.setRxState v).resets = s.resets := rfl

/-! setRxLen -/
@[simp] theorem State.setRxLen_cfg (s : State) (n : Nat) : (s.setRxLen n).cfg = s.cfg := rfl
@[simp] theorem State.setRxLen_rxState (s : State) (n : Nat) :
    (s.setRxLen n).rxState = s.rxState := rfl
@[simp] theorem State.setRxLen_rxBuf (s : State) (n : Nat) : (s.setRxLen n).rxBuf = s.rxBuf := rfl
@[simp] theorem State.setRxLen_rxLen (s : State) (n : Nat) : (s.setRxLen n).rxLen = n := rfl
@[simp] theorem State.setRxLen_rxPolls (s : State) (n : Nat) :
    (s.setRxLen n).rxPolls = s.rxPolls := rfl
@[simp] theorem State.setRxLen_rxOverflow (s : State) (n : Nat) :
    (s.setRxLen n).rxOverflow = s.rxOverflow := rfl
@[simp] theorem State.setRxLen_rxMalformed (s : State) (n : Nat) :
    (s.setRxLen n).rxMalformed = s.rxMalformed := rfl
@[simp] theorem State.setRxLen_txState (s : State) (n : Nat) :
    (s.setRxLen n).txState = s.txState := rfl
@[simp] theorem State.setRxLen_txCursor (s : State) (n : Nat) :
    (s.setRxLen n).txCursor = s.txCursor := rfl
@[simp] theorem State.setRxLen_txLen (s : State) (n : Nat) : (s.setRxLen n).txLen = s.txLen := rfl
@[simp] theorem State.setRxLen_txCable (s : State) (n : Nat) :
    (s.setRxLen n).txCable = s.txCable := rfl
@[simp] theorem State.setRxLen_txPayRef (s : State) (n : Nat) :
    (s.setRxLen n).txPayRef = s.txPayRef := rfl
@[simp] theorem State.setRxLen_txPay (s : State) (n : Nat) : (s.setRxLen n).txPay = s.txPay := rfl
@[simp] theorem State.setRxLen_txOut (s : State) (n : Nat) : (s.setRxLen n).txOut = s.txOut := rfl
@[simp] theorem State.setRxLen_evtOut (s : State) (n : Nat) :
    (s.setRxLen n).evtOut = s.evtOut := rfl
@[simp] theorem State.setRxLen_diagOut (s : State) (n : Nat) :
    (s.setRxLen n).diagOut = s.diagOut := rfl
@[simp] theorem State.setRxLen_rxStream (s : State) (n : Nat) :
    (s.setRxLen n).rxStream = s.rxStream := rfl
@[simp] theorem State.setRxLen_answersAfter (s : State) (n : Nat) :
    (s.setRxLen n).answersAfter = s.answersAfter := rfl
@[simp] theorem State.setRxLen_requests (s : State) (n : Nat) :
    (s.setRxLen n).requests = s.requests := rfl
@[simp] theorem State.setRxLen_requestsAfter (s : State) (n : Nat) :
    (s.setRxLen n).requestsAfter = s.requestsAfter := rfl
@[simp] theorem State.setRxLen_cmdTable (s : State) (n : Nat) :
    (s.setRxLen n).cmdTable = s.cmdTable := rfl
@[simp] theorem State.setRxLen_initPhase (s : State) (n : Nat) :
    (s.setRxLen n).initPhase = s.initPhase := rfl
@[simp] theorem State.setRxLen_regOut (s : State) (n : Nat) :
    (s.setRxLen n).regOut = s.regOut := rfl
@[simp] theorem State.setRxLen_callOut (s : State) (n : Nat) :
    (s.setRxLen n).callOut = s.callOut := rfl
@[simp] theorem State.setRxLen_resets (s : State) (n : Nat) :
    (s.setRxLen n).resets = s.resets := rfl

/-! setRxPolls -/
@[simp] theorem State.setRxPolls_cfg (s : State) (n : Nat) : (s.setRxPolls n).cfg = s.cfg := rfl
@[simp] theorem State.setRxPolls_rxState (s : State) (n : Nat) :
    (s.setRxPolls n).rxState = s.rxState := rfl
@[simp] theorem State.setRxPolls_rxBuf (s : State) (n : Nat) :
    (s.setRxPolls n).rxBuf = s.rxBuf := rfl
@[simp] theorem State.setRxPolls_rxLen (s : State) (n : Nat) :
    (s.setRxPolls n).rxLen = s.rxLen := rfl
@[simp] theorem State.setRxPolls_rxPolls (s : State) (n : Nat) : (s.setRxPolls n).rxPolls = n := rfl
@[simp] theorem State.setRxPolls_rxOverflow (s : State) (n : Nat) :
    (s.setRxPolls n).rxOverflow = s.rxOverflow := rfl
@[simp] theorem State.setRxPolls_rxMalformed (s : State) (n : Nat) :
    (s.setRxPolls n).rxMalformed = s.rxMalformed := rfl
@[simp] theorem State.setRxPolls_txState (s : State) (n : Nat) :
    (s.setRxPolls n).txState = s.txState := rfl
@[simp] theorem State.setRxPolls_txCursor (s : State) (n : Nat) :
    (s.setRxPolls n).txCursor = s.txCursor := rfl
@[simp] theorem State.setRxPolls_txLen (s : State) (n : Nat) :
    (s.setRxPolls n).txLen = s.txLen := rfl
@[simp] theorem State.setRxPolls_txCable (s : State) (n : Nat) :
    (s.setRxPolls n).txCable = s.txCable := rfl
@[simp] theorem State.setRxPolls_txPayRef (s : State) (n : Nat) :
    (s.setRxPolls n).txPayRef = s.txPayRef := rfl
@[simp] theorem State.setRxPolls_txPay (s : State) (n : Nat) :
    (s.setRxPolls n).txPay = s.txPay := rfl
@[simp] theorem State.setRxPolls_txOut (s : State) (n : Nat) :
    (s.setRxPolls n).txOut = s.txOut := rfl
@[simp] theorem State.setRxPolls_evtOut (s : State) (n : Nat) :
    (s.setRxPolls n).evtOut = s.evtOut := rfl
@[simp] theorem State.setRxPolls_diagOut (s : State) (n : Nat) :
    (s.setRxPolls n).diagOut = s.diagOut := rfl
@[simp] theorem State.setRxPolls_rxStream (s : State) (n : Nat) :
    (s.setRxPolls n).rxStream = s.rxStream := rfl
@[simp] theorem State.setRxPolls_answersAfter (s : State) (n : Nat) :
    (s.setRxPolls n).answersAfter = s.answersAfter := rfl
@[simp] theorem State.setRxPolls_requests (s : State) (n : Nat) :
    (s.setRxPolls n).requests = s.requests := rfl
@[simp] theorem State.setRxPolls_requestsAfter (s : State) (n : Nat) :
    (s.setRxPolls n).requestsAfter = s.requestsAfter := rfl
@[simp] theorem State.setRxPolls_cmdTable (s : State) (n : Nat) :
    (s.setRxPolls n).cmdTable = s.cmdTable := rfl
@[simp] theorem State.setRxPolls_initPhase (s : State) (n : Nat) :
    (s.setRxPolls n).initPhase = s.initPhase := rfl
@[simp] theorem State.setRxPolls_regOut (s : State) (n : Nat) :
    (s.setRxPolls n).regOut = s.regOut := rfl
@[simp] theorem State.setRxPolls_callOut (s : State) (n : Nat) :
    (s.setRxPolls n).callOut = s.callOut := rfl
@[simp] theorem State.setRxPolls_resets (s : State) (n : Nat) :
    (s.setRxPolls n).resets = s.resets := rfl

/-! setRxOverflow -/
@[simp] theorem State.setRxOverflow_cfg (s : State) (v : Bool) :
    (s.setRxOverflow v).cfg = s.cfg := rfl
@[simp] theorem State.setRxOverflow_rxState (s : State) (v : Bool) :
    (s.setRxOverflow v).rxState = s.rxState := rfl
@[simp] theorem State.setRxOverflow_rxBuf (s : State) (v : Bool) :
    (s.setRxOverflow v).rxBuf = s.rxBuf := rfl
@[simp] theorem State.setRxOverflow_rxLen (s : State) (v : Bool) :
    (s.setRxOverflow v).rxLen = s.rxLen := rfl
@[simp] theorem State.setRxOverflow_rxPolls (s : State) (v : Bool) :
    (s.setRxOverflow v).rxPolls = s.rxPolls := rfl
@[simp] theorem State.setRxOverflow_rxOverflow (s : State) (v : Bool) :
    (s.setRxOverflow v).rxOverflow = v := rfl
@[simp] theorem State.setRxOverflow_rxMalformed (s : State) (v : Bool) :
    (s.setRxOverflow v).rxMalformed = s.rxMalformed := rfl
@[simp] theorem State.setRxOverflow_txState (s : State) (v : Bool) :
    (s.setRxOverflow v).txState = s.txState := rfl
@[simp] theorem State.setRxOverflow_txCursor (s : State) (v : Bool) :
    (s.setRxOverflow v).txCursor = s.txCursor := rfl
@[simp] theorem State.setRxOverflow_txLen (s : State) (v : Bool) :
    (s.setRxOverflow v).txLen = s.txLen := rfl
@[simp] theorem State.setRxOverflow_txCable (s : State) (v : Bool) :
    (s.setRxOverflow v).txCable = s.txCable := rfl
@[simp] theorem State.setRxOverflow_txPayRef (s : State) (v : Bool) :
    (s.setRxOverflow v).txPayRef = s.txPayRef := rfl
@[simp] theorem State.setRxOverflow_txPay (s : State) (v : Bool) :
    (s.setRxOverflow v).txPay = s.txPay := rfl
@[simp] theorem State.setRxOverflow_txOut (s : State) (v : Bool) :
    (s.setRxOverflow v).txOut = s.txOut := rfl
@[simp] theorem State.setRxOverflow_evtOut (s : State) (v : Bool) :
    (s.setRxOverflow v).evtOut = s.evtOut := rfl
@[simp] theorem State.setRxOverflow_diagOut (s : State) (v : Bool) :
    (s.setRxOverflow v).diagOut = s.diagOut := rfl
@[simp] theorem State.setRxOverflow_rxStream (s : State) (v : Bool) :
    (s.setRxOverflow v).rxStream = s.rxStream := rfl
@[simp] theorem State.setRxOverflow_answersAfter (s : State) (v : Bool) :
    (s.setRxOverflow v).answersAfter = s.answersAfter := rfl
@[simp] theorem State.setRxOverflow_requests (s : State) (v : Bool) :
    (s.setRxOverflow v).requests = s.requests := rfl
@[simp] theorem State.setRxOverflow_requestsAfter (s : State) (v : Bool) :
    (s.setRxOverflow v).requestsAfter = s.requestsAfter := rfl
@[simp] theorem State.setRxOverflow_cmdTable (s : State) (v : Bool) :
    (s.setRxOverflow v).cmdTable = s.cmdTable := rfl
@[simp] theorem State.setRxOverflow_initPhase (s : State) (v : Bool) :
    (s.setRxOverflow v).initPhase = s.initPhase := rfl
@[simp] theorem State.setRxOverflow_regOut (s : State) (v : Bool) :
    (s.setRxOverflow v).regOut = s.regOut := rfl
@[simp] theorem State.setRxOverflow_callOut (s : State) (v : Bool) :
    (s.setRxOverflow v).callOut = s.callOut := rfl
@[simp] theorem State.setRxOverflow_resets (s : State) (v : Bool) :
    (s.setRxOverflow v).resets = s.resets := rfl

/-! setRxMalformed -/
@[simp] theorem State.setRxMalformed_cfg (s : State) (v : Bool) :
    (s.setRxMalformed v).cfg = s.cfg := rfl
@[simp] theorem State.setRxMalformed_rxState (s : State) (v : Bool) :
    (s.setRxMalformed v).rxState = s.rxState := rfl
@[simp] theorem State.setRxMalformed_rxBuf (s : State) (v : Bool) :
    (s.setRxMalformed v).rxBuf = s.rxBuf := rfl
@[simp] theorem State.setRxMalformed_rxLen (s : State) (v : Bool) :
    (s.setRxMalformed v).rxLen = s.rxLen := rfl
@[simp] theorem State.setRxMalformed_rxPolls (s : State) (v : Bool) :
    (s.setRxMalformed v).rxPolls = s.rxPolls := rfl
@[simp] theorem State.setRxMalformed_rxOverflow (s : State) (v : Bool) :
    (s.setRxMalformed v).rxOverflow = s.rxOverflow := rfl
@[simp] theorem State.setRxMalformed_rxMalformed (s : State) (v : Bool) :
    (s.setRxMalformed v).rxMalformed = v := rfl
@[simp] theorem State.setRxMalformed_txState (s : State) (v : Bool) :
    (s.setRxMalformed v).txState = s.txState := rfl
@[simp] theorem State.setRxMalformed_txCursor (s : State) (v : Bool) :
    (s.setRxMalformed v).txCursor = s.txCursor := rfl
@[simp] theorem State.setRxMalformed_txLen (s : State) (v : Bool) :
    (s.setRxMalformed v).txLen = s.txLen := rfl
@[simp] theorem State.setRxMalformed_txCable (s : State) (v : Bool) :
    (s.setRxMalformed v).txCable = s.txCable := rfl
@[simp] theorem State.setRxMalformed_txPayRef (s : State) (v : Bool) :
    (s.setRxMalformed v).txPayRef = s.txPayRef := rfl
@[simp] theorem State.setRxMalformed_txPay (s : State) (v : Bool) :
    (s.setRxMalformed v).txPay = s.txPay := rfl
@[simp] theorem State.setRxMalformed_txOut (s : State) (v : Bool) :
    (s.setRxMalformed v).txOut = s.txOut := rfl
@[simp] theorem State.setRxMalformed_evtOut (s : State) (v : Bool) :
    (s.setRxMalformed v).evtOut = s.evtOut := rfl
@[simp] theorem State.setRxMalformed_diagOut (s : State) (v : Bool) :
    (s.setRxMalformed v).diagOut = s.diagOut := rfl
@[simp] theorem State.setRxMalformed_rxStream (s : State) (v : Bool) :
    (s.setRxMalformed v).rxStream = s.rxStream := rfl
@[simp] theorem State.setRxMalformed_answersAfter (s : State) (v : Bool) :
    (s.setRxMalformed v).answersAfter = s.answersAfter := rfl
@[simp] theorem State.setRxMalformed_requests (s : State) (v : Bool) :
    (s.setRxMalformed v).requests = s.requests := rfl
@[simp] theorem State.setRxMalformed_requestsAfter (s : State) (v : Bool) :
    (s.setRxMalformed v).requestsAfter = s.requestsAfter := rfl
@[simp] theorem State.setRxMalformed_cmdTable (s : State) (v : Bool) :
    (s.setRxMalformed v).cmdTable = s.cmdTable := rfl
@[simp] theorem State.setRxMalformed_initPhase (s : State) (v : Bool) :
    (s.setRxMalformed v).initPhase = s.initPhase := rfl
@[simp] theorem State.setRxMalformed_regOut (s : State) (v : Bool) :
    (s.setRxMalformed v).regOut = s.regOut := rfl
@[simp] theorem State.setRxMalformed_callOut (s : State) (v : Bool) :
    (s.setRxMalformed v).callOut = s.callOut := rfl
@[simp] theorem State.setRxMalformed_resets (s : State) (v : Bool) :
    (s.setRxMalformed v).resets = s.resets := rfl

/-! storeRx -/
@[simp] theorem State.storeRx_cfg (s : State) (b : Byte) : (s.storeRx b).cfg = s.cfg := rfl
@[simp] theorem State.storeRx_rxState (s : State) (b : Byte) :
    (s.storeRx b).rxState = s.rxState := rfl
@[simp] theorem State.storeRx_rxBuf (s : State) (b : Byte) :
    (s.storeRx b).rxBuf = KMap.write s.rxBuf s.rxLen b := rfl
@[simp] theorem State.storeRx_rxLen (s : State) (b : Byte) :
    (s.storeRx b).rxLen = s.rxLen + 1 := rfl
@[simp] theorem State.storeRx_rxPolls (s : State) (b : Byte) :
    (s.storeRx b).rxPolls = s.rxPolls := rfl
@[simp] theorem State.storeRx_rxOverflow (s : State) (b : Byte) :
    (s.storeRx b).rxOverflow = s.rxOverflow := rfl
@[simp] theorem State.storeRx_rxMalformed (s : State) (b : Byte) :
    (s.storeRx b).rxMalformed = s.rxMalformed := rfl
@[simp] theorem State.storeRx_txState (s : State) (b : Byte) :
    (s.storeRx b).txState = s.txState := rfl
@[simp] theorem State.storeRx_txCursor (s : State) (b : Byte) :
    (s.storeRx b).txCursor = s.txCursor := rfl
@[simp] theorem State.storeRx_txLen (s : State) (b : Byte) : (s.storeRx b).txLen = s.txLen := rfl
@[simp] theorem State.storeRx_txCable (s : State) (b : Byte) :
    (s.storeRx b).txCable = s.txCable := rfl
@[simp] theorem State.storeRx_txPayRef (s : State) (b : Byte) :
    (s.storeRx b).txPayRef = s.txPayRef := rfl
@[simp] theorem State.storeRx_txPay (s : State) (b : Byte) : (s.storeRx b).txPay = s.txPay := rfl
@[simp] theorem State.storeRx_txOut (s : State) (b : Byte) : (s.storeRx b).txOut = s.txOut := rfl
@[simp] theorem State.storeRx_evtOut (s : State) (b : Byte) : (s.storeRx b).evtOut = s.evtOut := rfl
@[simp] theorem State.storeRx_diagOut (s : State) (b : Byte) :
    (s.storeRx b).diagOut = s.diagOut := rfl
@[simp] theorem State.storeRx_rxStream (s : State) (b : Byte) :
    (s.storeRx b).rxStream = s.rxStream := rfl
@[simp] theorem State.storeRx_answersAfter (s : State) (b : Byte) :
    (s.storeRx b).answersAfter = s.answersAfter := rfl
@[simp] theorem State.storeRx_requests (s : State) (b : Byte) :
    (s.storeRx b).requests = s.requests := rfl
@[simp] theorem State.storeRx_requestsAfter (s : State) (b : Byte) :
    (s.storeRx b).requestsAfter = s.requestsAfter := rfl
@[simp] theorem State.storeRx_cmdTable (s : State) (b : Byte) :
    (s.storeRx b).cmdTable = s.cmdTable := rfl
@[simp] theorem State.storeRx_initPhase (s : State) (b : Byte) :
    (s.storeRx b).initPhase = s.initPhase := rfl
@[simp] theorem State.storeRx_regOut (s : State) (b : Byte) : (s.storeRx b).regOut = s.regOut := rfl
@[simp] theorem State.storeRx_callOut (s : State) (b : Byte) :
    (s.storeRx b).callOut = s.callOut := rfl
@[simp] theorem State.storeRx_resets (s : State) (b : Byte) : (s.storeRx b).resets = s.resets := rfl

/-! emitDiag -/
@[simp] theorem State.emitDiag_cfg (s : State) (d : Diag) : (s.emitDiag d).cfg = s.cfg := rfl
@[simp] theorem State.emitDiag_rxState (s : State) (d : Diag) :
    (s.emitDiag d).rxState = s.rxState := rfl
@[simp] theorem State.emitDiag_rxBuf (s : State) (d : Diag) : (s.emitDiag d).rxBuf = s.rxBuf := rfl
@[simp] theorem State.emitDiag_rxLen (s : State) (d : Diag) : (s.emitDiag d).rxLen = s.rxLen := rfl
@[simp] theorem State.emitDiag_rxPolls (s : State) (d : Diag) :
    (s.emitDiag d).rxPolls = s.rxPolls := rfl
@[simp] theorem State.emitDiag_rxOverflow (s : State) (d : Diag) :
    (s.emitDiag d).rxOverflow = s.rxOverflow := rfl
@[simp] theorem State.emitDiag_rxMalformed (s : State) (d : Diag) :
    (s.emitDiag d).rxMalformed = s.rxMalformed := rfl
@[simp] theorem State.emitDiag_txState (s : State) (d : Diag) :
    (s.emitDiag d).txState = s.txState := rfl
@[simp] theorem State.emitDiag_txCursor (s : State) (d : Diag) :
    (s.emitDiag d).txCursor = s.txCursor := rfl
@[simp] theorem State.emitDiag_txLen (s : State) (d : Diag) : (s.emitDiag d).txLen = s.txLen := rfl
@[simp] theorem State.emitDiag_txCable (s : State) (d : Diag) :
    (s.emitDiag d).txCable = s.txCable := rfl
@[simp] theorem State.emitDiag_txPayRef (s : State) (d : Diag) :
    (s.emitDiag d).txPayRef = s.txPayRef := rfl
@[simp] theorem State.emitDiag_txPay (s : State) (d : Diag) : (s.emitDiag d).txPay = s.txPay := rfl
@[simp] theorem State.emitDiag_txOut (s : State) (d : Diag) : (s.emitDiag d).txOut = s.txOut := rfl
@[simp] theorem State.emitDiag_evtOut (s : State) (d : Diag) :
    (s.emitDiag d).evtOut = s.evtOut := rfl
@[simp] theorem State.emitDiag_diagOut (s : State) (d : Diag) :
    (s.emitDiag d).diagOut = s.diagOut ++ [d] := rfl
@[simp] theorem State.emitDiag_rxStream (s : State) (d : Diag) :
    (s.emitDiag d).rxStream = s.rxStream := rfl
@[simp] theorem State.emitDiag_answersAfter (s : State) (d : Diag) :
    (s.emitDiag d).answersAfter = s.answersAfter := rfl
@[simp] theorem State.emitDiag_requests (s : State) (d : Diag) :
    (s.emitDiag d).requests = s.requests := rfl
@[simp] theorem State.emitDiag_requestsAfter (s : State) (d : Diag) :
    (s.emitDiag d).requestsAfter = s.requestsAfter := rfl
@[simp] theorem State.emitDiag_cmdTable (s : State) (d : Diag) :
    (s.emitDiag d).cmdTable = s.cmdTable := rfl
@[simp] theorem State.emitDiag_initPhase (s : State) (d : Diag) :
    (s.emitDiag d).initPhase = s.initPhase := rfl
@[simp] theorem State.emitDiag_regOut (s : State) (d : Diag) :
    (s.emitDiag d).regOut = s.regOut := rfl
@[simp] theorem State.emitDiag_callOut (s : State) (d : Diag) :
    (s.emitDiag d).callOut = s.callOut := rfl
@[simp] theorem State.emitDiag_resets (s : State) (d : Diag) :
    (s.emitDiag d).resets = s.resets := rfl

/-! emitEvt -/
@[simp] theorem State.emitEvt_cfg (s : State) (e : Event) : (s.emitEvt e).cfg = s.cfg := rfl
@[simp] theorem State.emitEvt_rxState (s : State) (e : Event) :
    (s.emitEvt e).rxState = s.rxState := rfl
@[simp] theorem State.emitEvt_rxBuf (s : State) (e : Event) : (s.emitEvt e).rxBuf = s.rxBuf := rfl
@[simp] theorem State.emitEvt_rxLen (s : State) (e : Event) : (s.emitEvt e).rxLen = s.rxLen := rfl
@[simp] theorem State.emitEvt_rxPolls (s : State) (e : Event) :
    (s.emitEvt e).rxPolls = s.rxPolls := rfl
@[simp] theorem State.emitEvt_rxOverflow (s : State) (e : Event) :
    (s.emitEvt e).rxOverflow = s.rxOverflow := rfl
@[simp] theorem State.emitEvt_rxMalformed (s : State) (e : Event) :
    (s.emitEvt e).rxMalformed = s.rxMalformed := rfl
@[simp] theorem State.emitEvt_txState (s : State) (e : Event) :
    (s.emitEvt e).txState = s.txState := rfl
@[simp] theorem State.emitEvt_txCursor (s : State) (e : Event) :
    (s.emitEvt e).txCursor = s.txCursor := rfl
@[simp] theorem State.emitEvt_txLen (s : State) (e : Event) : (s.emitEvt e).txLen = s.txLen := rfl
@[simp] theorem State.emitEvt_txCable (s : State) (e : Event) :
    (s.emitEvt e).txCable = s.txCable := rfl
@[simp] theorem State.emitEvt_txPayRef (s : State) (e : Event) :
    (s.emitEvt e).txPayRef = s.txPayRef := rfl
@[simp] theorem State.emitEvt_txPay (s : State) (e : Event) : (s.emitEvt e).txPay = s.txPay := rfl
@[simp] theorem State.emitEvt_txOut (s : State) (e : Event) : (s.emitEvt e).txOut = s.txOut := rfl
@[simp] theorem State.emitEvt_evtOut (s : State) (e : Event) :
    (s.emitEvt e).evtOut = s.evtOut ++ [e] := rfl
@[simp] theorem State.emitEvt_diagOut (s : State) (e : Event) :
    (s.emitEvt e).diagOut = s.diagOut := rfl
@[simp] theorem State.emitEvt_rxStream (s : State) (e : Event) :
    (s.emitEvt e).rxStream = s.rxStream := rfl
@[simp] theorem State.emitEvt_answersAfter (s : State) (e : Event) :
    (s.emitEvt e).answersAfter = s.answersAfter := rfl
@[simp] theorem State.emitEvt_requests (s : State) (e : Event) :
    (s.emitEvt e).requests = s.requests := rfl
@[simp] theorem State.emitEvt_requestsAfter (s : State) (e : Event) :
    (s.emitEvt e).requestsAfter = s.requestsAfter := rfl
@[simp] theorem State.emitEvt_cmdTable (s : State) (e : Event) :
    (s.emitEvt e).cmdTable = s.cmdTable := rfl
@[simp] theorem State.emitEvt_initPhase (s : State) (e : Event) :
    (s.emitEvt e).initPhase = s.initPhase := rfl
@[simp] theorem State.emitEvt_regOut (s : State) (e : Event) :
    (s.emitEvt e).regOut = s.regOut := rfl
@[simp] theorem State.emitEvt_callOut (s : State) (e : Event) :
    (s.emitEvt e).callOut = s.callOut := rfl
@[simp] theorem State.emitEvt_resets (s : State) (e : Event) :
    (s.emitEvt e).resets = s.resets := rfl

/-! emitTx -/
@[simp] theorem State.emitTx_cfg (s : State) (p : Packet) : (s.emitTx p).cfg = s.cfg := rfl
@[simp] theorem State.emitTx_rxState (s : State) (p : Packet) :
    (s.emitTx p).rxState = s.rxState := rfl
@[simp] theorem State.emitTx_rxBuf (s : State) (p : Packet) : (s.emitTx p).rxBuf = s.rxBuf := rfl
@[simp] theorem State.emitTx_rxLen (s : State) (p : Packet) : (s.emitTx p).rxLen = s.rxLen := rfl
@[simp] theorem State.emitTx_rxPolls (s : State) (p : Packet) :
    (s.emitTx p).rxPolls = s.rxPolls := rfl
@[simp] theorem State.emitTx_rxOverflow (s : State) (p : Packet) :
    (s.emitTx p).rxOverflow = s.rxOverflow := rfl
@[simp] theorem State.emitTx_rxMalformed (s : State) (p : Packet) :
    (s.emitTx p).rxMalformed = s.rxMalformed := rfl
@[simp] theorem State.emitTx_txState (s : State) (p : Packet) :
    (s.emitTx p).txState = s.txState := rfl
@[simp] theorem State.emitTx_txCursor (s : State) (p : Packet) :
    (s.emitTx p).txCursor = s.txCursor := rfl
@[simp] theorem State.emitTx_txLen (s : State) (p : Packet) : (s.emitTx p).txLen = s.txLen := rfl
@[simp] theorem State.emitTx_txCable (s : State) (p : Packet) :
    (s.emitTx p).txCable = s.txCable := rfl
@[simp] theorem State.emitTx_txPayRef (s : State) (p : Packet) :
    (s.emitTx p).txPayRef = s.txPayRef := rfl
@[simp] theorem State.emitTx_txPay (s : State) (p : Packet) : (s.emitTx p).txPay = s.txPay := rfl
@[simp] theorem State.emitTx_txOut (s : State) (p : Packet) :
    (s.emitTx p).txOut = s.txOut ++ [p] := rfl
@[simp] theorem State.emitTx_evtOut (s : State) (p : Packet) : (s.emitTx p).evtOut = s.evtOut := rfl
@[simp] theorem State.emitTx_diagOut (s : State) (p : Packet) :
    (s.emitTx p).diagOut = s.diagOut := rfl
@[simp] theorem State.emitTx_rxStream (s : State) (p : Packet) :
    (s.emitTx p).rxStream = s.rxStream := rfl
@[simp] theorem State.emitTx_answersAfter (s : State) (p : Packet) :
    (s.emitTx p).answersAfter = s.answersAfter := rfl
@[simp] theorem State.emitTx_requests (s : State) (p : Packet) :
    (s.emitTx p).requests = s.requests := rfl
@[simp] theorem State.emitTx_requestsAfter (s : State) (p : Packet) :
    (s.emitTx p).requestsAfter = s.requestsAfter := rfl
@[simp] theorem State.emitTx_cmdTable (s : State) (p : Packet) :
    (s.emitTx p).cmdTable = s.cmdTable := rfl
@[simp] theorem State.emitTx_initPhase (s : State) (p : Packet) :
    (s.emitTx p).initPhase = s.initPhase := rfl
@[simp] theorem State.emitTx_regOut (s : State) (p : Packet) : (s.emitTx p).regOut = s.regOut := rfl
@[simp] theorem State.emitTx_callOut (s : State) (p : Packet) :
    (s.emitTx p).callOut = s.callOut := rfl
@[simp] theorem State.emitTx_resets (s : State) (p : Packet) : (s.emitTx p).resets = s.resets := rfl

/-! moveTx -/
@[simp] theorem State.moveTx_cfg (s : State) (c : Nat) (v : TxState) :
    (s.moveTx c v).cfg = s.cfg := rfl
@[simp] theorem State.moveTx_rxState (s : State) (c : Nat) (v : TxState) :
    (s.moveTx c v).rxState = s.rxState := rfl
@[simp] theorem State.moveTx_rxBuf (s : State) (c : Nat) (v : TxState) :
    (s.moveTx c v).rxBuf = s.rxBuf := rfl
@[simp] theorem State.moveTx_rxLen (s : State) (c : Nat) (v : TxState) :
    (s.moveTx c v).rxLen = s.rxLen := rfl
@[simp] theorem State.moveTx_rxPolls (s : State) (c : Nat) (v : TxState) :
    (s.moveTx c v).rxPolls = s.rxPolls := rfl
@[simp] theorem State.moveTx_rxOverflow (s : State) (c : Nat) (v : TxState) :
    (s.moveTx c v).rxOverflow = s.rxOverflow := rfl
@[simp] theorem State.moveTx_rxMalformed (s : State) (c : Nat) (v : TxState) :
    (s.moveTx c v).rxMalformed = s.rxMalformed := rfl
@[simp] theorem State.moveTx_txState (s : State) (c : Nat) (v : TxState) :
    (s.moveTx c v).txState = v := rfl
@[simp] theorem State.moveTx_txCursor (s : State) (c : Nat) (v : TxState) :
    (s.moveTx c v).txCursor = c := rfl
@[simp] theorem State.moveTx_txLen (s : State) (c : Nat) (v : TxState) :
    (s.moveTx c v).txLen = s.txLen := rfl
@[simp] theorem State.moveTx_txCable (s : State) (c : Nat) (v : TxState) :
    (s.moveTx c v).txCable = s.txCable := rfl
@[simp] theorem State.moveTx_txPayRef (s : State) (c : Nat) (v : TxState) :
    (s.moveTx c v).txPayRef = s.txPayRef := rfl
@[simp] theorem State.moveTx_txPay (s : State) (c : Nat) (v : TxState) :
    (s.moveTx c v).txPay = s.txPay := rfl
@[simp] theorem State.moveTx_txOut (s : State) (c : Nat) (v : TxState) :
    (s.moveTx c v).txOut = s.txOut := rfl
@[simp] theorem State.moveTx_evtOut (s : State) (c : Nat) (v : TxState) :
    (s.moveTx c v).evtOut = s.evtOut := rfl
@[simp] theorem State.moveTx_diagOut (s : State) (c : Nat) (v : TxState) :
    (s.moveTx c v).diagOut = s.diagOut := rfl
@[simp] theorem State.moveTx_rxStream (s : State) (c : Nat) (v : TxState) :
    (s.moveTx c v).rxStream = s.rxStream := rfl
@[simp] theorem State.moveTx_answersAfter (s : State) (c : Nat) (v : TxState) :
    (s.moveTx c v).answersAfter = s.answersAfter := rfl
@[simp] theorem State.moveTx_requests (s : State) (c : Nat) (v : TxState) :
    (s.moveTx c v).requests = s.requests := rfl
@[simp] theorem State.moveTx_requestsAfter (s : State) (c : Nat) (v : TxState) :
    (s.moveTx c v).requestsAfter = s.requestsAfter := rfl
@[simp] theorem State.moveTx_cmdTable (s : State) (c : Nat) (v : TxState) :
    (s.moveTx c v).cmdTable = s.cmdTable := rfl
@[simp] theorem State.moveTx_initPhase (s : State) (c : Nat) (v : TxState) :
    (s.moveTx c v).initPhase = s.initPhase := rfl
@[simp] theorem State.moveTx_regOut (s : State) (c : Nat) (v : TxState) :
    (s.moveTx c v).regOut = s.regOut := rfl
@[simp] theorem State.moveTx_callOut (s : State) (c : Nat) (v : TxState) :
    (s.moveTx c v).callOut = s.callOut := rfl
@[simp] theorem State.moveTx_resets (s : State) (c : Nat) (v : TxState) :
    (s.moveTx c v).resets = s.resets := rfl

/-! latchTx -/
@[simp] theorem State.latchTx_cfg (s : State) (c : Nibble) (n : Nat) (r : PayRef) :
    (s.latchTx c n r).cfg = s.cfg := rfl
@[simp] theorem State.latchTx_rxState (s : State) (c : Nibble) (n : Nat) (r : PayRef) :
    (s.latchTx c n r).rxState = s.rxState := rfl
@[simp] theorem State.latchTx_rxBuf (s : State) (c : Nibble) (n : Nat) (r : PayRef) :
    (s.latchTx c n r).rxBuf = s.rxBuf := rfl
@[simp] theorem State.latchTx_rxLen (s : State) (c : Nibble) (n : Nat) (r : PayRef) :
    (s.latchTx c n r).rxLen = s.rxLen := rfl
@[simp] theorem State.latchTx_rxPolls (s : State) (c : Nibble) (n : Nat) (r : PayRef) :
    (s.latchTx c n r).rxPolls = s.rxPolls := rfl
@[simp] theorem State.latchTx_rxOverflow (s : State) (c : Nibble) (n : Nat) (r : PayRef) :
    (s.latchTx c n r).rxOverflow = s.rxOverflow := rfl
@[simp] theorem State.latchTx_rxMalformed (s : State) (c : Nibble) (n : Nat) (r : PayRef) :
    (s.latchTx c n r).rxMalformed = s.rxMalformed := rfl
@[simp] theorem State.latchTx_txState (s : State) (c : Nibble) (n : Nat) (r : PayRef) :
    (s.latchTx c n r).txState = s.txState := rfl
@[simp] theorem State.latchTx_txCursor (s : State) (c : Nibble) (n : Nat) (r : PayRef) :
    (s.latchTx c n r).txCursor = s.txCursor := rfl
@[simp] theorem State.latchTx_txLen (s : State) (c : Nibble) (n : Nat) (r : PayRef) :
    (s.latchTx c n r).txLen = n := rfl
@[simp] theorem State.latchTx_txCable (s : State) (c : Nibble) (n : Nat) (r : PayRef) :
    (s.latchTx c n r).txCable = c := rfl
@[simp] theorem State.latchTx_txPayRef (s : State) (c : Nibble) (n : Nat) (r : PayRef) :
    (s.latchTx c n r).txPayRef = r := rfl
@[simp] theorem State.latchTx_txPay (s : State) (c : Nibble) (n : Nat) (r : PayRef) :
    (s.latchTx c n r).txPay = s.txPay := rfl
@[simp] theorem State.latchTx_txOut (s : State) (c : Nibble) (n : Nat) (r : PayRef) :
    (s.latchTx c n r).txOut = s.txOut := rfl
@[simp] theorem State.latchTx_evtOut (s : State) (c : Nibble) (n : Nat) (r : PayRef) :
    (s.latchTx c n r).evtOut = s.evtOut := rfl
@[simp] theorem State.latchTx_diagOut (s : State) (c : Nibble) (n : Nat) (r : PayRef) :
    (s.latchTx c n r).diagOut = s.diagOut := rfl
@[simp] theorem State.latchTx_rxStream (s : State) (c : Nibble) (n : Nat) (r : PayRef) :
    (s.latchTx c n r).rxStream = s.rxStream := rfl
@[simp] theorem State.latchTx_answersAfter (s : State) (c : Nibble) (n : Nat) (r : PayRef) :
    (s.latchTx c n r).answersAfter = s.answersAfter := rfl
@[simp] theorem State.latchTx_requests (s : State) (c : Nibble) (n : Nat) (r : PayRef) :
    (s.latchTx c n r).requests = s.requests := rfl
@[simp] theorem State.latchTx_requestsAfter (s : State) (c : Nibble) (n : Nat) (r : PayRef) :
    (s.latchTx c n r).requestsAfter = s.requestsAfter := rfl
@[simp] theorem State.latchTx_cmdTable (s : State) (c : Nibble) (n : Nat) (r : PayRef) :
    (s.latchTx c n r).cmdTable = s.cmdTable := rfl
@[simp] theorem State.latchTx_initPhase (s : State) (c : Nibble) (n : Nat) (r : PayRef) :
    (s.latchTx c n r).initPhase = s.initPhase := rfl
@[simp] theorem State.latchTx_regOut (s : State) (c : Nibble) (n : Nat) (r : PayRef) :
    (s.latchTx c n r).regOut = s.regOut := rfl
@[simp] theorem State.latchTx_callOut (s : State) (c : Nibble) (n : Nat) (r : PayRef) :
    (s.latchTx c n r).callOut = s.callOut := rfl
@[simp] theorem State.latchTx_resets (s : State) (c : Nibble) (n : Nat) (r : PayRef) :
    (s.latchTx c n r).resets = s.resets := rfl

/-! setStream -/
@[simp] theorem State.setStream_cfg (s : State) (l : List Answer) :
    (s.setStream l).cfg = s.cfg := rfl
@[simp] theorem State.setStream_rxState (s : State) (l : List Answer) :
    (s.setStream l).rxState = s.rxState := rfl
@[simp] theorem State.setStream_rxBuf (s : State) (l : List Answer) :
    (s.setStream l).rxBuf = s.rxBuf := rfl
@[simp] theorem State.setStream_rxLen (s : State) (l : List Answer) :
    (s.setStream l).rxLen = s.rxLen := rfl
@[simp] theorem State.setStream_rxPolls (s : State) (l : List Answer) :
    (s.setStream l).rxPolls = s.rxPolls := rfl
@[simp] theorem State.setStream_rxOverflow (s : State) (l : List Answer) :
    (s.setStream l).rxOverflow = s.rxOverflow := rfl
@[simp] theorem State.setStream_rxMalformed (s : State) (l : List Answer) :
    (s.setStream l).rxMalformed = s.rxMalformed := rfl
@[simp] theorem State.setStream_txState (s : State) (l : List Answer) :
    (s.setStream l).txState = s.txState := rfl
@[simp] theorem State.setStream_txCursor (s : State) (l : List Answer) :
    (s.setStream l).txCursor = s.txCursor := rfl
@[simp] theorem State.setStream_txLen (s : State) (l : List Answer) :
    (s.setStream l).txLen = s.txLen := rfl
@[simp] theorem State.setStream_txCable (s : State) (l : List Answer) :
    (s.setStream l).txCable = s.txCable := rfl
@[simp] theorem State.setStream_txPayRef (s : State) (l : List Answer) :
    (s.setStream l).txPayRef = s.txPayRef := rfl
@[simp] theorem State.setStream_txPay (s : State) (l : List Answer) :
    (s.setStream l).txPay = s.txPay := rfl
@[simp] theorem State.setStream_txOut (s : State) (l : List Answer) :
    (s.setStream l).txOut = s.txOut := rfl
@[simp] theorem State.setStream_evtOut (s : State) (l : List Answer) :
    (s.setStream l).evtOut = s.evtOut := rfl
@[simp] theorem State.setStream_diagOut (s : State) (l : List Answer) :
    (s.setStream l).diagOut = s.diagOut := rfl
@[simp] theorem State.setStream_rxStream (s : State) (l : List Answer) :
    (s.setStream l).rxStream = l := rfl
@[simp] theorem State.setStream_answersAfter (s : State) (l : List Answer) :
    (s.setStream l).answersAfter = s.answersAfter := rfl
@[simp] theorem State.setStream_requests (s : State) (l : List Answer) :
    (s.setStream l).requests = s.requests := rfl
@[simp] theorem State.setStream_requestsAfter (s : State) (l : List Answer) :
    (s.setStream l).requestsAfter = s.requestsAfter := rfl
@[simp] theorem State.setStream_cmdTable (s : State) (l : List Answer) :
    (s.setStream l).cmdTable = s.cmdTable := rfl
@[simp] theorem State.setStream_initPhase (s : State) (l : List Answer) :
    (s.setStream l).initPhase = s.initPhase := rfl
@[simp] theorem State.setStream_regOut (s : State) (l : List Answer) :
    (s.setStream l).regOut = s.regOut := rfl
@[simp] theorem State.setStream_callOut (s : State) (l : List Answer) :
    (s.setStream l).callOut = s.callOut := rfl
@[simp] theorem State.setStream_resets (s : State) (l : List Answer) :
    (s.setStream l).resets = s.resets := rfl

/-! setRequests -/
@[simp] theorem State.setRequests_cfg (s : State) (l : List Request) :
    (s.setRequests l).cfg = s.cfg := rfl
@[simp] theorem State.setRequests_rxState (s : State) (l : List Request) :
    (s.setRequests l).rxState = s.rxState := rfl
@[simp] theorem State.setRequests_rxBuf (s : State) (l : List Request) :
    (s.setRequests l).rxBuf = s.rxBuf := rfl
@[simp] theorem State.setRequests_rxLen (s : State) (l : List Request) :
    (s.setRequests l).rxLen = s.rxLen := rfl
@[simp] theorem State.setRequests_rxPolls (s : State) (l : List Request) :
    (s.setRequests l).rxPolls = s.rxPolls := rfl
@[simp] theorem State.setRequests_rxOverflow (s : State) (l : List Request) :
    (s.setRequests l).rxOverflow = s.rxOverflow := rfl
@[simp] theorem State.setRequests_rxMalformed (s : State) (l : List Request) :
    (s.setRequests l).rxMalformed = s.rxMalformed := rfl
@[simp] theorem State.setRequests_txState (s : State) (l : List Request) :
    (s.setRequests l).txState = s.txState := rfl
@[simp] theorem State.setRequests_txCursor (s : State) (l : List Request) :
    (s.setRequests l).txCursor = s.txCursor := rfl
@[simp] theorem State.setRequests_txLen (s : State) (l : List Request) :
    (s.setRequests l).txLen = s.txLen := rfl
@[simp] theorem State.setRequests_txCable (s : State) (l : List Request) :
    (s.setRequests l).txCable = s.txCable := rfl
@[simp] theorem State.setRequests_txPayRef (s : State) (l : List Request) :
    (s.setRequests l).txPayRef = s.txPayRef := rfl
@[simp] theorem State.setRequests_txPay (s : State) (l : List Request) :
    (s.setRequests l).txPay = s.txPay := rfl
@[simp] theorem State.setRequests_txOut (s : State) (l : List Request) :
    (s.setRequests l).txOut = s.txOut := rfl
@[simp] theorem State.setRequests_evtOut (s : State) (l : List Request) :
    (s.setRequests l).evtOut = s.evtOut := rfl
@[simp] theorem State.setRequests_diagOut (s : State) (l : List Request) :
    (s.setRequests l).diagOut = s.diagOut := rfl
@[simp] theorem State.setRequests_rxStream (s : State) (l : List Request) :
    (s.setRequests l).rxStream = s.rxStream := rfl
@[simp] theorem State.setRequests_answersAfter (s : State) (l : List Request) :
    (s.setRequests l).answersAfter = s.answersAfter := rfl
@[simp] theorem State.setRequests_requests (s : State) (l : List Request) :
    (s.setRequests l).requests = l := rfl
@[simp] theorem State.setRequests_requestsAfter (s : State) (l : List Request) :
    (s.setRequests l).requestsAfter = s.requestsAfter := rfl
@[simp] theorem State.setRequests_cmdTable (s : State) (l : List Request) :
    (s.setRequests l).cmdTable = s.cmdTable := rfl
@[simp] theorem State.setRequests_initPhase (s : State) (l : List Request) :
    (s.setRequests l).initPhase = s.initPhase := rfl
@[simp] theorem State.setRequests_regOut (s : State) (l : List Request) :
    (s.setRequests l).regOut = s.regOut := rfl
@[simp] theorem State.setRequests_callOut (s : State) (l : List Request) :
    (s.setRequests l).callOut = s.callOut := rfl
@[simp] theorem State.setRequests_resets (s : State) (l : List Request) :
    (s.setRequests l).resets = s.resets := rfl

/-! feedAnswers -/
@[simp] theorem State.feedAnswers_cfg (s : State) : (s.feedAnswers).cfg = s.cfg := rfl
@[simp] theorem State.feedAnswers_rxState (s : State) : (s.feedAnswers).rxState = s.rxState := rfl
@[simp] theorem State.feedAnswers_rxBuf (s : State) : (s.feedAnswers).rxBuf = s.rxBuf := rfl
@[simp] theorem State.feedAnswers_rxLen (s : State) : (s.feedAnswers).rxLen = s.rxLen := rfl
@[simp] theorem State.feedAnswers_rxPolls (s : State) : (s.feedAnswers).rxPolls = s.rxPolls := rfl
@[simp] theorem State.feedAnswers_rxOverflow (s : State) :
    (s.feedAnswers).rxOverflow = s.rxOverflow := rfl
@[simp] theorem State.feedAnswers_rxMalformed (s : State) :
    (s.feedAnswers).rxMalformed = s.rxMalformed := rfl
@[simp] theorem State.feedAnswers_txState (s : State) : (s.feedAnswers).txState = s.txState := rfl
@[simp] theorem State.feedAnswers_txCursor (s : State) :
    (s.feedAnswers).txCursor = s.txCursor := rfl
@[simp] theorem State.feedAnswers_txLen (s : State) : (s.feedAnswers).txLen = s.txLen := rfl
@[simp] theorem State.feedAnswers_txCable (s : State) : (s.feedAnswers).txCable = s.txCable := rfl
@[simp] theorem State.feedAnswers_txPayRef (s : State) :
    (s.feedAnswers).txPayRef = s.txPayRef := rfl
@[simp] theorem State.feedAnswers_txPay (s : State) : (s.feedAnswers).txPay = s.txPay := rfl
@[simp] theorem State.feedAnswers_txOut (s : State) : (s.feedAnswers).txOut = s.txOut := rfl
@[simp] theorem State.feedAnswers_evtOut (s : State) : (s.feedAnswers).evtOut = s.evtOut := rfl
@[simp] theorem State.feedAnswers_diagOut (s : State) : (s.feedAnswers).diagOut = s.diagOut := rfl
theorem State.feedAnswers_rxStream (s : State) :
    (s.feedAnswers).rxStream = (Source.feed drawAnswer s.rxStream s.answersAfter).1 := rfl
theorem State.feedAnswers_answersAfter (s : State) :
    (s.feedAnswers).answersAfter = (Source.feed drawAnswer s.rxStream s.answersAfter).2 := rfl
@[simp] theorem State.feedAnswers_requests (s : State) :
    (s.feedAnswers).requests = s.requests := rfl
@[simp] theorem State.feedAnswers_requestsAfter (s : State) :
    (s.feedAnswers).requestsAfter = s.requestsAfter := rfl
@[simp] theorem State.feedAnswers_cmdTable (s : State) :
    (s.feedAnswers).cmdTable = s.cmdTable := rfl
@[simp] theorem State.feedAnswers_initPhase (s : State) :
    (s.feedAnswers).initPhase = s.initPhase := rfl
@[simp] theorem State.feedAnswers_regOut (s : State) : (s.feedAnswers).regOut = s.regOut := rfl
@[simp] theorem State.feedAnswers_callOut (s : State) : (s.feedAnswers).callOut = s.callOut := rfl
@[simp] theorem State.feedAnswers_resets (s : State) : (s.feedAnswers).resets = s.resets := rfl

/-! feedRequests -/
@[simp] theorem State.feedRequests_cfg (s : State) : (s.feedRequests).cfg = s.cfg := rfl
@[simp] theorem State.feedRequests_rxState (s : State) : (s.feedRequests).rxState = s.rxState := rfl
@[simp] theorem State.feedRequests_rxBuf (s : State) : (s.feedRequests).rxBuf = s.rxBuf := rfl
@[simp] theorem State.feedRequests_rxLen (s : State) : (s.feedRequests).rxLen = s.rxLen := rfl
@[simp] theorem State.feedRequests_rxPolls (s : State) : (s.feedRequests).rxPolls = s.rxPolls := rfl
@[simp] theorem State.feedRequests_rxOverflow (s : State) :
    (s.feedRequests).rxOverflow = s.rxOverflow := rfl
@[simp] theorem State.feedRequests_rxMalformed (s : State) :
    (s.feedRequests).rxMalformed = s.rxMalformed := rfl
@[simp] theorem State.feedRequests_txState (s : State) : (s.feedRequests).txState = s.txState := rfl
@[simp] theorem State.feedRequests_txCursor (s : State) :
    (s.feedRequests).txCursor = s.txCursor := rfl
@[simp] theorem State.feedRequests_txLen (s : State) : (s.feedRequests).txLen = s.txLen := rfl
@[simp] theorem State.feedRequests_txCable (s : State) : (s.feedRequests).txCable = s.txCable := rfl
@[simp] theorem State.feedRequests_txPayRef (s : State) :
    (s.feedRequests).txPayRef = s.txPayRef := rfl
@[simp] theorem State.feedRequests_txPay (s : State) : (s.feedRequests).txPay = s.txPay := rfl
@[simp] theorem State.feedRequests_txOut (s : State) : (s.feedRequests).txOut = s.txOut := rfl
@[simp] theorem State.feedRequests_evtOut (s : State) : (s.feedRequests).evtOut = s.evtOut := rfl
@[simp] theorem State.feedRequests_diagOut (s : State) : (s.feedRequests).diagOut = s.diagOut := rfl
@[simp] theorem State.feedRequests_rxStream (s : State) :
    (s.feedRequests).rxStream = s.rxStream := rfl
@[simp] theorem State.feedRequests_answersAfter (s : State) :
    (s.feedRequests).answersAfter = s.answersAfter := rfl
theorem State.feedRequests_requests (s : State) :
    (s.feedRequests).requests = (Source.feed drawRequest s.requests s.requestsAfter).1 := rfl
theorem State.feedRequests_requestsAfter (s : State) :
    (s.feedRequests).requestsAfter = (Source.feed drawRequest s.requests s.requestsAfter).2 := rfl
@[simp] theorem State.feedRequests_cmdTable (s : State) :
    (s.feedRequests).cmdTable = s.cmdTable := rfl
@[simp] theorem State.feedRequests_initPhase (s : State) :
    (s.feedRequests).initPhase = s.initPhase := rfl
@[simp] theorem State.feedRequests_regOut (s : State) : (s.feedRequests).regOut = s.regOut := rfl
@[simp] theorem State.feedRequests_callOut (s : State) : (s.feedRequests).callOut = s.callOut := rfl
@[simp] theorem State.feedRequests_resets (s : State) : (s.feedRequests).resets = s.resets := rfl

/-! endInit -/
@[simp] theorem State.endInit_cfg (s : State) : (s.endInit).cfg = s.cfg := rfl
@[simp] theorem State.endInit_rxState (s : State) : (s.endInit).rxState = s.rxState := rfl
@[simp] theorem State.endInit_rxBuf (s : State) : (s.endInit).rxBuf = s.rxBuf := rfl
@[simp] theorem State.endInit_rxLen (s : State) : (s.endInit).rxLen = s.rxLen := rfl
@[simp] theorem State.endInit_rxPolls (s : State) : (s.endInit).rxPolls = s.rxPolls := rfl
@[simp] theorem State.endInit_rxOverflow (s : State) : (s.endInit).rxOverflow = s.rxOverflow := rfl
@[simp] theorem State.endInit_rxMalformed (s : State) :
    (s.endInit).rxMalformed = s.rxMalformed := rfl
@[simp] theorem State.endInit_txState (s : State) : (s.endInit).txState = s.txState := rfl
@[simp] theorem State.endInit_txCursor (s : State) : (s.endInit).txCursor = s.txCursor := rfl
@[simp] theorem State.endInit_txLen (s : State) : (s.endInit).txLen = s.txLen := rfl
@[simp] theorem State.endInit_txCable (s : State) : (s.endInit).txCable = s.txCable := rfl
@[simp] theorem State.endInit_txPayRef (s : State) : (s.endInit).txPayRef = s.txPayRef := rfl
@[simp] theorem State.endInit_txPay (s : State) : (s.endInit).txPay = s.txPay := rfl
@[simp] theorem State.endInit_txOut (s : State) : (s.endInit).txOut = s.txOut := rfl
@[simp] theorem State.endInit_evtOut (s : State) : (s.endInit).evtOut = s.evtOut := rfl
@[simp] theorem State.endInit_diagOut (s : State) : (s.endInit).diagOut = s.diagOut := rfl
@[simp] theorem State.endInit_rxStream (s : State) : (s.endInit).rxStream = s.rxStream := rfl
@[simp] theorem State.endInit_answersAfter (s : State) :
    (s.endInit).answersAfter = s.answersAfter := rfl
@[simp] theorem State.endInit_requests (s : State) : (s.endInit).requests = s.requests := rfl
@[simp] theorem State.endInit_requestsAfter (s : State) :
    (s.endInit).requestsAfter = s.requestsAfter := rfl
@[simp] theorem State.endInit_cmdTable (s : State) : (s.endInit).cmdTable = s.cmdTable := rfl
@[simp] theorem State.endInit_initPhase (s : State) : (s.endInit).initPhase = false := rfl
@[simp] theorem State.endInit_regOut (s : State) : (s.endInit).regOut = s.regOut := rfl
@[simp] theorem State.endInit_callOut (s : State) : (s.endInit).callOut = s.callOut := rfl
@[simp] theorem State.endInit_resets (s : State) : (s.endInit).resets = s.resets := rfl

/-! setCommand -/
@[simp] theorem State.setCommand_cfg (s : State) (k : Byte) (c : Callback) :
    (s.setCommand k c).cfg = s.cfg := rfl
@[simp] theorem State.setCommand_rxState (s : State) (k : Byte) (c : Callback) :
    (s.setCommand k c).rxState = s.rxState := rfl
@[simp] theorem State.setCommand_rxBuf (s : State) (k : Byte) (c : Callback) :
    (s.setCommand k c).rxBuf = s.rxBuf := rfl
@[simp] theorem State.setCommand_rxLen (s : State) (k : Byte) (c : Callback) :
    (s.setCommand k c).rxLen = s.rxLen := rfl
@[simp] theorem State.setCommand_rxPolls (s : State) (k : Byte) (c : Callback) :
    (s.setCommand k c).rxPolls = s.rxPolls := rfl
@[simp] theorem State.setCommand_rxOverflow (s : State) (k : Byte) (c : Callback) :
    (s.setCommand k c).rxOverflow = s.rxOverflow := rfl
@[simp] theorem State.setCommand_rxMalformed (s : State) (k : Byte) (c : Callback) :
    (s.setCommand k c).rxMalformed = s.rxMalformed := rfl
@[simp] theorem State.setCommand_txState (s : State) (k : Byte) (c : Callback) :
    (s.setCommand k c).txState = s.txState := rfl
@[simp] theorem State.setCommand_txCursor (s : State) (k : Byte) (c : Callback) :
    (s.setCommand k c).txCursor = s.txCursor := rfl
@[simp] theorem State.setCommand_txLen (s : State) (k : Byte) (c : Callback) :
    (s.setCommand k c).txLen = s.txLen := rfl
@[simp] theorem State.setCommand_txCable (s : State) (k : Byte) (c : Callback) :
    (s.setCommand k c).txCable = s.txCable := rfl
@[simp] theorem State.setCommand_txPayRef (s : State) (k : Byte) (c : Callback) :
    (s.setCommand k c).txPayRef = s.txPayRef := rfl
@[simp] theorem State.setCommand_txPay (s : State) (k : Byte) (c : Callback) :
    (s.setCommand k c).txPay = s.txPay := rfl
@[simp] theorem State.setCommand_txOut (s : State) (k : Byte) (c : Callback) :
    (s.setCommand k c).txOut = s.txOut := rfl
@[simp] theorem State.setCommand_evtOut (s : State) (k : Byte) (c : Callback) :
    (s.setCommand k c).evtOut = s.evtOut := rfl
@[simp] theorem State.setCommand_diagOut (s : State) (k : Byte) (c : Callback) :
    (s.setCommand k c).diagOut = s.diagOut := rfl
@[simp] theorem State.setCommand_rxStream (s : State) (k : Byte) (c : Callback) :
    (s.setCommand k c).rxStream = s.rxStream := rfl
@[simp] theorem State.setCommand_answersAfter (s : State) (k : Byte) (c : Callback) :
    (s.setCommand k c).answersAfter = s.answersAfter := rfl
@[simp] theorem State.setCommand_requests (s : State) (k : Byte) (c : Callback) :
    (s.setCommand k c).requests = s.requests := rfl
@[simp] theorem State.setCommand_requestsAfter (s : State) (k : Byte) (c : Callback) :
    (s.setCommand k c).requestsAfter = s.requestsAfter := rfl
@[simp] theorem State.setCommand_cmdTable (s : State) (k : Byte) (c : Callback) :
    (s.setCommand k c).cmdTable = KMap.write s.cmdTable k.toNat c := rfl
@[simp] theorem State.setCommand_initPhase (s : State) (k : Byte) (c : Callback) :
    (s.setCommand k c).initPhase = s.initPhase := rfl
@[simp] theorem State.setCommand_regOut (s : State) (k : Byte) (c : Callback) :
    (s.setCommand k c).regOut = s.regOut := rfl
@[simp] theorem State.setCommand_callOut (s : State) (k : Byte) (c : Callback) :
    (s.setCommand k c).callOut = s.callOut := rfl
@[simp] theorem State.setCommand_resets (s : State) (k : Byte) (c : Callback) :
    (s.setCommand k c).resets = s.resets := rfl

/-! returnReg -/
@[simp] theorem State.returnReg_cfg (s : State) (r : RegResult) : (s.returnReg r).cfg = s.cfg := rfl
@[simp] theorem State.returnReg_rxState (s : State) (r : RegResult) :
    (s.returnReg r).rxState = s.rxState := rfl
@[simp] theorem State.returnReg_rxBuf (s : State) (r : RegResult) :
    (s.returnReg r).rxBuf = s.rxBuf := rfl
@[simp] theorem State.returnReg_rxLen (s : State) (r : RegResult) :
    (s.returnReg r).rxLen = s.rxLen := rfl
@[simp] theorem State.returnReg_rxPolls (s : State) (r : RegResult) :
    (s.returnReg r).rxPolls = s.rxPolls := rfl
@[simp] theorem State.returnReg_rxOverflow (s : State) (r : RegResult) :
    (s.returnReg r).rxOverflow = s.rxOverflow := rfl
@[simp] theorem State.returnReg_rxMalformed (s : State) (r : RegResult) :
    (s.returnReg r).rxMalformed = s.rxMalformed := rfl
@[simp] theorem State.returnReg_txState (s : State) (r : RegResult) :
    (s.returnReg r).txState = s.txState := rfl
@[simp] theorem State.returnReg_txCursor (s : State) (r : RegResult) :
    (s.returnReg r).txCursor = s.txCursor := rfl
@[simp] theorem State.returnReg_txLen (s : State) (r : RegResult) :
    (s.returnReg r).txLen = s.txLen := rfl
@[simp] theorem State.returnReg_txCable (s : State) (r : RegResult) :
    (s.returnReg r).txCable = s.txCable := rfl
@[simp] theorem State.returnReg_txPayRef (s : State) (r : RegResult) :
    (s.returnReg r).txPayRef = s.txPayRef := rfl
@[simp] theorem State.returnReg_txPay (s : State) (r : RegResult) :
    (s.returnReg r).txPay = s.txPay := rfl
@[simp] theorem State.returnReg_txOut (s : State) (r : RegResult) :
    (s.returnReg r).txOut = s.txOut := rfl
@[simp] theorem State.returnReg_evtOut (s : State) (r : RegResult) :
    (s.returnReg r).evtOut = s.evtOut := rfl
@[simp] theorem State.returnReg_diagOut (s : State) (r : RegResult) :
    (s.returnReg r).diagOut = s.diagOut := rfl
@[simp] theorem State.returnReg_rxStream (s : State) (r : RegResult) :
    (s.returnReg r).rxStream = s.rxStream := rfl
@[simp] theorem State.returnReg_answersAfter (s : State) (r : RegResult) :
    (s.returnReg r).answersAfter = s.answersAfter := rfl
@[simp] theorem State.returnReg_requests (s : State) (r : RegResult) :
    (s.returnReg r).requests = s.requests := rfl
@[simp] theorem State.returnReg_requestsAfter (s : State) (r : RegResult) :
    (s.returnReg r).requestsAfter = s.requestsAfter := rfl
@[simp] theorem State.returnReg_cmdTable (s : State) (r : RegResult) :
    (s.returnReg r).cmdTable = s.cmdTable := rfl
@[simp] theorem State.returnReg_initPhase (s : State) (r : RegResult) :
    (s.returnReg r).initPhase = s.initPhase := rfl
@[simp] theorem State.returnReg_regOut (s : State) (r : RegResult) :
    (s.returnReg r).regOut = s.regOut ++ [r] := rfl
@[simp] theorem State.returnReg_callOut (s : State) (r : RegResult) :
    (s.returnReg r).callOut = s.callOut := rfl
@[simp] theorem State.returnReg_resets (s : State) (r : RegResult) :
    (s.returnReg r).resets = s.resets := rfl

/-! invoke -/
@[simp] theorem State.invoke_cfg (s : State) (c : Call) : (s.invoke c).cfg = s.cfg := rfl
@[simp] theorem State.invoke_rxState (s : State) (c : Call) :
    (s.invoke c).rxState = s.rxState := rfl
@[simp] theorem State.invoke_rxBuf (s : State) (c : Call) : (s.invoke c).rxBuf = s.rxBuf := rfl
@[simp] theorem State.invoke_rxLen (s : State) (c : Call) : (s.invoke c).rxLen = s.rxLen := rfl
@[simp] theorem State.invoke_rxPolls (s : State) (c : Call) :
    (s.invoke c).rxPolls = s.rxPolls := rfl
@[simp] theorem State.invoke_rxOverflow (s : State) (c : Call) :
    (s.invoke c).rxOverflow = s.rxOverflow := rfl
@[simp] theorem State.invoke_rxMalformed (s : State) (c : Call) :
    (s.invoke c).rxMalformed = s.rxMalformed := rfl
@[simp] theorem State.invoke_txState (s : State) (c : Call) :
    (s.invoke c).txState = s.txState := rfl
@[simp] theorem State.invoke_txCursor (s : State) (c : Call) :
    (s.invoke c).txCursor = s.txCursor := rfl
@[simp] theorem State.invoke_txLen (s : State) (c : Call) : (s.invoke c).txLen = s.txLen := rfl
@[simp] theorem State.invoke_txCable (s : State) (c : Call) :
    (s.invoke c).txCable = s.txCable := rfl
@[simp] theorem State.invoke_txPayRef (s : State) (c : Call) :
    (s.invoke c).txPayRef = s.txPayRef := rfl
@[simp] theorem State.invoke_txPay (s : State) (c : Call) : (s.invoke c).txPay = s.txPay := rfl
@[simp] theorem State.invoke_txOut (s : State) (c : Call) : (s.invoke c).txOut = s.txOut := rfl
@[simp] theorem State.invoke_evtOut (s : State) (c : Call) : (s.invoke c).evtOut = s.evtOut := rfl
@[simp] theorem State.invoke_diagOut (s : State) (c : Call) :
    (s.invoke c).diagOut = s.diagOut := rfl
@[simp] theorem State.invoke_rxStream (s : State) (c : Call) :
    (s.invoke c).rxStream = s.rxStream := rfl
@[simp] theorem State.invoke_answersAfter (s : State) (c : Call) :
    (s.invoke c).answersAfter = s.answersAfter := rfl
@[simp] theorem State.invoke_requests (s : State) (c : Call) :
    (s.invoke c).requests = s.requests := rfl
@[simp] theorem State.invoke_requestsAfter (s : State) (c : Call) :
    (s.invoke c).requestsAfter = s.requestsAfter := rfl
@[simp] theorem State.invoke_cmdTable (s : State) (c : Call) :
    (s.invoke c).cmdTable = s.cmdTable := rfl
@[simp] theorem State.invoke_initPhase (s : State) (c : Call) :
    (s.invoke c).initPhase = s.initPhase := rfl
@[simp] theorem State.invoke_regOut (s : State) (c : Call) : (s.invoke c).regOut = s.regOut := rfl
@[simp] theorem State.invoke_callOut (s : State) (c : Call) :
    (s.invoke c).callOut = s.callOut ++ [c] := rfl
@[simp] theorem State.invoke_resets (s : State) (c : Call) : (s.invoke c).resets = s.resets := rfl

/-! writePay -/
@[simp] theorem State.writePay_cfg (s : State) (i : Nat) (b : Byte) :
    (s.writePay i b).cfg = s.cfg := rfl
@[simp] theorem State.writePay_rxState (s : State) (i : Nat) (b : Byte) :
    (s.writePay i b).rxState = s.rxState := rfl
@[simp] theorem State.writePay_rxBuf (s : State) (i : Nat) (b : Byte) :
    (s.writePay i b).rxBuf = s.rxBuf := rfl
@[simp] theorem State.writePay_rxLen (s : State) (i : Nat) (b : Byte) :
    (s.writePay i b).rxLen = s.rxLen := rfl
@[simp] theorem State.writePay_rxPolls (s : State) (i : Nat) (b : Byte) :
    (s.writePay i b).rxPolls = s.rxPolls := rfl
@[simp] theorem State.writePay_rxOverflow (s : State) (i : Nat) (b : Byte) :
    (s.writePay i b).rxOverflow = s.rxOverflow := rfl
@[simp] theorem State.writePay_rxMalformed (s : State) (i : Nat) (b : Byte) :
    (s.writePay i b).rxMalformed = s.rxMalformed := rfl
@[simp] theorem State.writePay_txState (s : State) (i : Nat) (b : Byte) :
    (s.writePay i b).txState = s.txState := rfl
@[simp] theorem State.writePay_txCursor (s : State) (i : Nat) (b : Byte) :
    (s.writePay i b).txCursor = s.txCursor := rfl
@[simp] theorem State.writePay_txLen (s : State) (i : Nat) (b : Byte) :
    (s.writePay i b).txLen = s.txLen := rfl
@[simp] theorem State.writePay_txCable (s : State) (i : Nat) (b : Byte) :
    (s.writePay i b).txCable = s.txCable := rfl
@[simp] theorem State.writePay_txPayRef (s : State) (i : Nat) (b : Byte) :
    (s.writePay i b).txPayRef = s.txPayRef := rfl
@[simp] theorem State.writePay_txPay (s : State) (i : Nat) (b : Byte) :
    (s.writePay i b).txPay = KMap.write s.txPay i b := rfl
@[simp] theorem State.writePay_txOut (s : State) (i : Nat) (b : Byte) :
    (s.writePay i b).txOut = s.txOut := rfl
@[simp] theorem State.writePay_evtOut (s : State) (i : Nat) (b : Byte) :
    (s.writePay i b).evtOut = s.evtOut := rfl
@[simp] theorem State.writePay_diagOut (s : State) (i : Nat) (b : Byte) :
    (s.writePay i b).diagOut = s.diagOut := rfl
@[simp] theorem State.writePay_rxStream (s : State) (i : Nat) (b : Byte) :
    (s.writePay i b).rxStream = s.rxStream := rfl
@[simp] theorem State.writePay_answersAfter (s : State) (i : Nat) (b : Byte) :
    (s.writePay i b).answersAfter = s.answersAfter := rfl
@[simp] theorem State.writePay_requests (s : State) (i : Nat) (b : Byte) :
    (s.writePay i b).requests = s.requests := rfl
@[simp] theorem State.writePay_requestsAfter (s : State) (i : Nat) (b : Byte) :
    (s.writePay i b).requestsAfter = s.requestsAfter := rfl
@[simp] theorem State.writePay_cmdTable (s : State) (i : Nat) (b : Byte) :
    (s.writePay i b).cmdTable = s.cmdTable := rfl
@[simp] theorem State.writePay_initPhase (s : State) (i : Nat) (b : Byte) :
    (s.writePay i b).initPhase = s.initPhase := rfl
@[simp] theorem State.writePay_regOut (s : State) (i : Nat) (b : Byte) :
    (s.writePay i b).regOut = s.regOut := rfl
@[simp] theorem State.writePay_callOut (s : State) (i : Nat) (b : Byte) :
    (s.writePay i b).callOut = s.callOut := rfl
@[simp] theorem State.writePay_resets (s : State) (i : Nat) (b : Byte) :
    (s.writePay i b).resets = s.resets := rfl

/-! resetBlock -/
@[simp] theorem State.resetBlock_cfg (s : State) : (s.resetBlock).cfg = s.cfg := rfl
@[simp] theorem State.resetBlock_rxState (s : State) : (s.resetBlock).rxState = .idle := rfl
@[simp] theorem State.resetBlock_rxBuf (s : State) : (s.resetBlock).rxBuf = [] := rfl
@[simp] theorem State.resetBlock_rxLen (s : State) : (s.resetBlock).rxLen = 0 := rfl
@[simp] theorem State.resetBlock_rxPolls (s : State) : (s.resetBlock).rxPolls = 0 := rfl
@[simp] theorem State.resetBlock_rxOverflow (s : State) : (s.resetBlock).rxOverflow = false := rfl
@[simp] theorem State.resetBlock_rxMalformed (s : State) : (s.resetBlock).rxMalformed = false := rfl
@[simp] theorem State.resetBlock_txState (s : State) : (s.resetBlock).txState = .idle := rfl
@[simp] theorem State.resetBlock_txCursor (s : State) : (s.resetBlock).txCursor = 0 := rfl
@[simp] theorem State.resetBlock_txLen (s : State) : (s.resetBlock).txLen = 0 := rfl
@[simp] theorem State.resetBlock_txCable (s : State) : (s.resetBlock).txCable = 0#4 := rfl
@[simp] theorem State.resetBlock_txPayRef (s : State) : (s.resetBlock).txPayRef = .own := rfl
@[simp] theorem State.resetBlock_txPay (s : State) : (s.resetBlock).txPay = s.txPay := rfl
@[simp] theorem State.resetBlock_txOut (s : State) : (s.resetBlock).txOut = [] := rfl
@[simp] theorem State.resetBlock_evtOut (s : State) : (s.resetBlock).evtOut = [] := rfl
@[simp] theorem State.resetBlock_diagOut (s : State) : (s.resetBlock).diagOut = [] := rfl
@[simp] theorem State.resetBlock_rxStream (s : State) : (s.resetBlock).rxStream = s.rxStream := rfl
@[simp] theorem State.resetBlock_answersAfter (s : State) :
    (s.resetBlock).answersAfter = s.answersAfter := rfl
@[simp] theorem State.resetBlock_requests (s : State) : (s.resetBlock).requests = s.requests := rfl
@[simp] theorem State.resetBlock_requestsAfter (s : State) :
    (s.resetBlock).requestsAfter = s.requestsAfter := rfl
@[simp] theorem State.resetBlock_cmdTable (s : State) : (s.resetBlock).cmdTable = [] := rfl
@[simp] theorem State.resetBlock_initPhase (s : State) : (s.resetBlock).initPhase = true := rfl
@[simp] theorem State.resetBlock_regOut (s : State) : (s.resetBlock).regOut = [] := rfl
@[simp] theorem State.resetBlock_callOut (s : State) : (s.resetBlock).callOut = [] := rfl
@[simp] theorem State.resetBlock_resets (s : State) : (s.resetBlock).resets = s.resets + 1 := rfl

end Sys2Proof.Machine
end

