-- ==== Sys2Proof/Laws/Ops.lean ====
section
/-!
SUPPORT. One lemma per shared operation, saying once everything it does: appending any
number of bytes (20_memory.md R39), the two ends of a message (41_sysex_reassembler.md
R78), the dispatch of a packet by the reassembler's state (R70).
-/
namespace Sys2Proof.Machine

theorem State.hasRoom_iff (s : State) : s.hasRoom = true ↔ s.rxLen < s.cfg.cap := by
  simp [State.hasRoom]

theorem State.append_room (s : State) (b : Byte) (h : s.rxLen < s.cfg.cap) :
    s.append b = s.storeRx b := if_pos ((State.hasRoom_iff s).mpr h)

theorem State.append_full (s : State) (b : Byte) (h : s.cfg.cap ≤ s.rxLen) :
    s.append b = s.raise .bufferOverflow :=
  if_neg fun hr => absurd ((State.hasRoom_iff s).mp hr) (Nat.not_lt.mpr h)

theorem State.raise_bufferOverflow (s : State) :
    s.raise .bufferOverflow =
      { s with rxOverflow := true
               diagOut := s.diagOut ++ (if s.rxOverflow then [] else [.overflow]) } := by
  cases hov : s.rxOverflow
  · simp [State.raise, hov, State.emitDiag, State.setRxOverflow]
  · obtain ⟨⟩ := s; cases hov; simp [State.raise]

/-- Appending several bytes in the order written. -/
def State.appendAll (s : State) (bs : List Byte) : State := bs.foldl State.append s

/-- Everything an append of several bytes does, from a length within the capacity: the
bytes that fit are stored at `rx_len` and up, the others set the flag and give one
diagnostic for the message; nothing else changes. -/
structure Appended (s t : State) (bs : List Byte) : Prop where
  eq : t = { s with
    rxBuf := t.rxBuf
    rxLen := min (s.rxLen + bs.length) s.cfg.cap
    rxOverflow := s.rxOverflow || decide (s.cfg.cap < s.rxLen + bs.length)
    diagOut := s.diagOut ++
      (if !s.rxOverflow && decide (s.cfg.cap < s.rxLen + bs.length) then [.overflow] else []) }
  read : ∀ a, KMap.read t.rxBuf a =
    if s.rxLen ≤ a ∧ a < s.rxLen + bs.length ∧ a < s.cfg.cap then bs[a - s.rxLen]?
    else KMap.read s.rxBuf a
  wf : Memory.wf s.rxBuf → Memory.wf t.rxBuf
  inside : (∀ c ∈ s.rxBuf, c.1 < s.cfg.cap) → ∀ c ∈ t.rxBuf, c.1 < s.cfg.cap

theorem State.appendAll_spec (bs : List Byte) : ∀ (s : State), s.rxLen ≤ s.cfg.cap →
    Appended s (s.appendAll bs) bs := by
  induction bs with
  | nil =>
    intro s h
    refine ⟨?_, fun a => ?_, id, id⟩
    · obtain ⟨⟩ := s
      simp only [State.appendAll, List.foldl_nil, List.length_nil, Nat.add_zero] at h ⊢
      simp [Nat.min_eq_left h, Nat.not_lt.mpr h]
    · simp [State.appendAll]; omega
  | cons b bs ih =>
    intro s h
    have hcons : s.appendAll (b :: bs) = (s.append b).appendAll bs := rfl
    rw [hcons]
    by_cases hr : s.rxLen < s.cfg.cap
    · have hs := State.append_room s b hr
      have ih := ih (s.append b) (by rw [hs]; exact hr)
      rw [hs] at ih ⊢
      refine ⟨?_, fun a => ?_, fun hw => ih.wf (KMap.wf_write _ _ _ hw), fun hi => ?_⟩
      · rw [ih.eq]
        simp [State.storeRx, Nat.add_assoc, Nat.add_comm]
      · rw [ih.read]
        simp only [State.storeRx_rxLen, State.storeRx_cfg, State.storeRx_rxBuf,
          KMap.read_write, List.length_cons]
        by_cases ha : a = s.rxLen
        · subst ha; simp [hr]
        · by_cases hlt : s.rxLen < a
          · obtain ⟨k, rfl⟩ := Nat.exists_eq_add_of_lt hlt
            have e1 : s.rxLen + k + 1 - (s.rxLen + 1) = k := by omega
            have e2 : s.rxLen + k + 1 - s.rxLen = k + 1 := by omega
            simp only [e1, e2, List.getElem?_cons_succ]
            refine if_congr (by omega) rfl ?_
            rw [if_neg (by omega)]
          · rw [if_neg (by omega), if_neg ha, if_neg (by omega)]
      · refine ih.inside fun c hc => ?_
        rcases KMap.mem_write _ _ _ _ hc with rfl | hc
        · exact hr
        · exact hi c hc
    · have hf : s.cfg.cap ≤ s.rxLen := Nat.le_of_not_lt hr
      have hs := State.append_full s b hf
      rw [State.raise_bufferOverflow] at hs
      have ih := ih (s.append b) (by rw [hs]; exact h)
      rw [hs] at ih ⊢
      have he : s.cfg.cap = s.rxLen := Nat.le_antisymm hf h
      refine ⟨?_, fun a => ?_, ih.wf, ih.inside⟩
      · rw [ih.eq]
        cases hov : s.rxOverflow <;> simp [he]
      · rw [ih.read]
        simp only [List.length_cons]
        rw [if_neg (by omega), if_neg (by omega)]

/-- From any length, an append of several bytes leaves all but the buffer, the length, the
overflow flag and `diag_out`. -/
theorem State.appendAll_frame (bs : List Byte) (s : State) :
    s.appendAll bs = { s with
      rxBuf := (s.appendAll bs).rxBuf
      rxLen := (s.appendAll bs).rxLen
      rxOverflow := (s.appendAll bs).rxOverflow
      diagOut := (s.appendAll bs).diagOut } := by
  induction bs generalizing s with
  | nil => rfl
  | cons b bs ih =>
    have hc : s.appendAll (b :: bs) = (s.append b).appendAll bs := rfl
    rw [hc, ih]
    by_cases hr : s.rxLen < s.cfg.cap
    · rw [State.append_room _ _ hr]; rfl
    · rw [State.append_full _ _ (Nat.le_of_not_lt hr), State.raise_bufferOverflow]

/-- From any length, an append of several bytes emits at most one diagnostic, and only
with the flag going up. -/
theorem State.appendAll_diag (bs : List Byte) (s : State) :
    ((s.appendAll bs).diagOut = s.diagOut ∧ (s.appendAll bs).rxOverflow = s.rxOverflow) ∨
    ((s.appendAll bs).diagOut = s.diagOut ++ [.overflow] ∧ s.rxOverflow = false ∧
      (s.appendAll bs).rxOverflow = true ∧ bs ≠ []) := by
  induction bs generalizing s with
  | nil => exact .inl ⟨rfl, rfl⟩
  | cons b bs ih =>
    have hc : s.appendAll (b :: bs) = (s.append b).appendAll bs := rfl
    rw [hc]
    by_cases hr : s.rxLen < s.cfg.cap
    · rw [State.append_room _ _ hr]
      rcases ih (s.storeRx b) with h | ⟨h1, h2, h3, _⟩
      · exact .inl h
      · exact .inr ⟨h1, h2, h3, by simp⟩
    · rw [State.append_full _ _ (Nat.le_of_not_lt hr), State.raise_bufferOverflow]
      rcases ih { s with
          rxOverflow := true
          diagOut := s.diagOut ++ (if s.rxOverflow then [] else [.overflow]) } with
        h | ⟨_, h2, _, _⟩
      · cases hov : s.rxOverflow
        · right; rw [hov] at h; exact ⟨h.1, rfl, h.2, by simp⟩
        · left; rw [hov] at h; simpa using h
      · cases h2

/-- `append` is the append of one byte. -/
theorem State.append_eq_appendAll (s : State) (b : Byte) : s.append b = s.appendAll [b] := rfl

theorem State.endClean_eq (s : State) :
    s.endClean = { s with rxMalformed := false
                          rxLen := if s.rxOverflow then 0 else s.rxLen
                          rxPolls := 0
                          rxState := .done } := rfl

theorem State.raise_malformedContinuation (s : State) :
    s.raise .malformedContinuation =
      { s with rxMalformed := true, diagOut := s.diagOut ++ [.malformed], rxLen := 0
               rxPolls := 0, rxState := .done } := rfl

theorem State.raise_timeout (s : State) :
    s.raise .timeout =
      { s with rxLen := 0, rxPolls := 0, diagOut := s.diagOut ++ [.timeout]
               rxState := .timedOut } := rfl

theorem State.endMessage_false (s : State) : s.endMessage false = s.endClean := rfl

theorem State.endMessage_true (s : State) :
    s.endMessage true = s.raise .malformedContinuation := rfl

theorem State.startRx_eq (s : State) :
    s.startRx = { s with rxLen := 0, rxOverflow := false, rxMalformed := false
                         rxPolls := 0 } := rfl

theorem State.takePacket_idle {s : State} {f g : State → State} (hr : s.rxState = .idle)
    (ht : s.txState = .idle) : s.takePacket f g = .next (f s) := by
  unfold State.takePacket; rw [hr, ht]

theorem State.takePacket_accumulating {s : State} {f g : State → State}
    (hr : s.rxState = .accumulating) (ht : s.txState = .idle) :
    s.takePacket f g = .next (g (s.setRxPolls 0)) := by
  unfold State.takePacket; rw [hr, ht]

/-- Everything a packet answer can come to. -/
theorem State.takePacket_cases (s : State) (f g : State → State) :
    (s.rxState = .idle ∧ s.txState = .idle ∧ s.takePacket f g = .next (f s)) ∨
    (s.rxState = .accumulating ∧ s.txState = .idle ∧
      s.takePacket f g = .next (g (s.setRxPolls 0))) ∨
    (s.rxPollEnabled = false ∧ s.takePacket f g = .refused .rxPollNotEnabled) := by
  unfold State.takePacket State.rxPollEnabled
  cases s.rxState <;> cases s.txState <;> simp

/-- An enabled operation has its effect. -/
theorem State.guarded_true {why : Refusal} {t : State} :
    State.guarded true why t = .next t := rfl

theorem State.guarded_false {why : Refusal} {t : State} :
    State.guarded false why t = .refused why := rfl

/-- If an operation with one effect answers a next state, it was enabled and that is the
state. -/
theorem State.guarded_next {e : Bool} {why : Refusal} {t u : State}
    (h : State.guarded e why t = .next u) : e = true ∧ t = u := by
  cases e
  · cases h
  · exact ⟨rfl, by injection h⟩

end Sys2Proof.Machine
end

