-- ==== Sys2Proof/Laws/Exec.lean ====
section
/-!
SUPPORT. What a packet answer can come to, said once over all sixteen kinds
(41_sysex_reassembler.md R72 to R76): every claim about `exec` is derived from this case
list and from `State.appendAll_spec`.
-/
namespace Sys2Proof.Machine

/-- The bytes a packet appends in Accumulating (R72 to R76). -/
def appendedBytes : Instr → List Byte
  | .sc _ d0 d1 d2 => [d0, d1, d2]
  | .e3 _ d0 d1 _ => [d0, d1]
  | .e2 _ d0 _ _ => [d0]
  | _ => []

/-- A packet ends the message cleanly: E1, E2 or E3. -/
def endsMessage : Instr → Bool
  | .e1 _ _ _ _ => true
  | .e2 _ _ _ _ => true
  | .e3 _ _ _ _ => true
  | _ => false

/-- A packet is of kind SC. -/
def continues : Instr → Bool
  | .sc _ _ _ _ => true
  | _ => false

/-- The five ways a packet is taken, and the one in which it is not. -/
inductive Taken (i : Instr) (s : State) : Host.Outcome State Fault Refusal → Prop where
  | start (c : Nibble) (d0 d1 d2 : Byte) (hi : i = .sc c d0 d1 d2) (hr : s.rxState = .idle)
      (ht : s.txState = .idle) :
      Taken i s (.next ((s.startRx.appendAll [d1, d2]).setRxState .accumulating))
  | pass (hi : continues i = false) (hr : s.rxState = .idle) (ht : s.txState = .idle) :
      Taken i s (.next (s.emitEvt i.event))
  | more (hi : continues i = true) (hr : s.rxState = .accumulating)
      (ht : s.txState = .idle) :
      Taken i s (.next ((s.setRxPolls 0).appendAll (appendedBytes i)))
  | clean (hi : endsMessage i = true) (hr : s.rxState = .accumulating)
      (ht : s.txState = .idle) :
      Taken i s (.next ((s.setRxPolls 0).appendAll (appendedBytes i)).endClean)
  | malformed (hc : continues i = false) (he : endsMessage i = false)
      (hr : s.rxState = .accumulating) (ht : s.txState = .idle) :
      Taken i s (.next ((s.setRxPolls 0).raise .malformedContinuation))
  | refused (h : s.rxPollEnabled = false) : Taken i s (.refused .rxPollNotEnabled)

theorem otherKind_taken (i : Instr) (s : State) (hc : continues i = false)
    (he : endsMessage i = false) : Taken i s (s.otherKind i.event) := by
  unfold State.otherKind
  rcases State.takePacket_cases s (fun s => s.emitEvt i.event) (fun s => s.endMessage true) with
    ⟨hr, ht, h⟩ | ⟨hr, ht, h⟩ | ⟨hn, h⟩ <;> rw [h]
  · exact .pass hc hr ht
  · exact .malformed hc he hr ht
  · exact .refused hn

theorem end_taken (i : Instr) (s : State) (hc : continues i = false)
    (he : endsMessage i = true) :
    Taken i s (s.takePacket (fun s => s.emitEvt i.event)
      (fun s => (s.appendAll (appendedBytes i)).endMessage false)) := by
  rcases State.takePacket_cases s (fun s => s.emitEvt i.event)
    (fun s => (s.appendAll (appendedBytes i)).endMessage false) with
    ⟨hr, ht, h⟩ | ⟨hr, ht, h⟩ | ⟨hn, h⟩ <;> rw [h]
  · exact .pass hc hr ht
  · exact .clean he hr ht
  · exact .refused hn

/-- Everything `exec` can do. -/
theorem exec_taken (i : Instr) (s : State) : Taken i s (exec i s) := by
  cases i with
  | sc c d0 d1 d2 =>
    show Taken _ s (execSC c d0 d1 d2 s)
    unfold execSC
    rcases State.takePacket_cases s
      (fun s => ((s.startRx.append d1).append d2).setRxState .accumulating)
      (fun s => ((s.append d0).append d1).append d2) with
      ⟨hr, ht, h⟩ | ⟨hr, ht, h⟩ | ⟨hn, h⟩ <;> rw [h]
    · exact .start c d0 d1 d2 rfl hr ht
    · exact .more rfl hr ht
    · exact .refused hn
  | e1 c d0 d1 d2 => exact end_taken (.e1 c d0 d1 d2) s rfl rfl
  | e2 c d0 d1 d2 => exact end_taken (.e2 c d0 d1 d2) s rfl rfl
  | e3 c d0 d1 d2 => exact end_taken (.e3 c d0 d1 d2) s rfl rfl
  | ns0 c d0 d1 d2 => exact otherKind_taken (.ns0 c d0 d1 d2) s rfl rfl
  | ns1 c d0 d1 d2 => exact otherKind_taken (.ns1 c d0 d1 d2) s rfl rfl
  | ns2 c d0 d1 d2 => exact otherKind_taken (.ns2 c d0 d1 d2) s rfl rfl
  | ns3 c d0 d1 d2 => exact otherKind_taken (.ns3 c d0 d1 d2) s rfl rfl
  | ns8 c d0 d1 d2 => exact otherKind_taken (.ns8 c d0 d1 d2) s rfl rfl
  | ns9 c d0 d1 d2 => exact otherKind_taken (.ns9 c d0 d1 d2) s rfl rfl
  | nsA c d0 d1 d2 => exact otherKind_taken (.nsA c d0 d1 d2) s rfl rfl
  | nsB c d0 d1 d2 => exact otherKind_taken (.nsB c d0 d1 d2) s rfl rfl
  | nsC c d0 d1 d2 => exact otherKind_taken (.nsC c d0 d1 d2) s rfl rfl
  | nsD c d0 d1 d2 => exact otherKind_taken (.nsD c d0 d1 d2) s rfl rfl
  | nsE c d0 d1 d2 => exact otherKind_taken (.nsE c d0 d1 d2) s rfl rfl
  | nsF c d0 d1 d2 => exact otherKind_taken (.nsF c d0 d1 d2) s rfl rfl

/-- An SC in Idle starts a reassembly (R72). -/
theorem exec_start {s : State} (c : Nibble) (d0 d1 d2 : Byte) (hr : s.rxState = .idle)
    (ht : s.txState = .idle) :
    exec (.sc c d0 d1 d2) s =
      .next ((s.startRx.appendAll [d1, d2]).setRxState .accumulating) := by
  show execSC c d0 d1 d2 s = _
  exact State.takePacket_idle hr ht

/-- An SC in Accumulating continues the reassembly (R72). -/
theorem exec_more {s : State} (c : Nibble) (d0 d1 d2 : Byte) (hr : s.rxState = .accumulating)
    (ht : s.txState = .idle) :
    exec (.sc c d0 d1 d2) s = .next ((s.setRxPolls 0).appendAll [d0, d1, d2]) := by
  show execSC c d0 d1 d2 s = _
  exact State.takePacket_accumulating hr ht

/-- A packet answer in Idle that is no SC passes its event through (R73 to R76). -/
theorem exec_idle {i : Instr} {s : State} (hc : continues i = false)
    (hr : s.rxState = .idle) (ht : s.txState = .idle) :
    exec i s = .next (s.emitEvt i.event) := by
  have h := exec_taken i s
  generalize exec i s = x at h ⊢
  cases h with
  | start c d0 d1 d2 hi => subst hi; cases hc
  | pass => rfl
  | more _ hr' => rw [hr] at hr'; cases hr'
  | clean _ hr' => rw [hr] at hr'; cases hr'
  | malformed _ _ hr' => rw [hr] at hr'; cases hr'
  | refused h => simp [State.rxPollEnabled, hr, ht] at h

/-- A packet answer in Accumulating that ends the message cleanly (R73 to R75). -/
theorem exec_clean {i : Instr} {s : State} (hi : endsMessage i = true)
    (hr : s.rxState = .accumulating) (ht : s.txState = .idle) :
    exec i s = .next ((s.setRxPolls 0).appendAll (appendedBytes i)).endClean := by
  have h := exec_taken i s
  generalize exec i s = x at h ⊢
  cases h with
  | start _ _ _ _ _ hr' => rw [hr] at hr'; cases hr'
  | pass _ hr' => rw [hr] at hr'; cases hr'
  | more hc => cases i <;> first | (cases hi; done) | cases hc
  | clean => rfl
  | malformed _ he => rw [hi] at he; cases he
  | refused h => simp [State.rxPollEnabled, hr, ht] at h

/-- A packet answer in Accumulating of another kind (R76). -/
theorem exec_malformed {i : Instr} {s : State} (hc : continues i = false)
    (he : endsMessage i = false) (hr : s.rxState = .accumulating) (ht : s.txState = .idle) :
    exec i s = .next ((s.setRxPolls 0).raise .malformedContinuation) := by
  have h := exec_taken i s
  generalize exec i s = x at h ⊢
  cases h with
  | start _ _ _ _ _ hr' => rw [hr] at hr'; cases hr'
  | pass _ hr' => rw [hr] at hr'; cases hr'
  | more hc' => rw [hc] at hc'; cases hc'
  | clean he' => rw [he] at he'; cases he'
  | malformed => rfl
  | refused h => simp [State.rxPollEnabled, hr, ht] at h

end Sys2Proof.Machine
end

