-- ==== Sys2Proof/Laws/PerInstr.lean ====
section
/-!
SUPPORT. One law per instruction: the low nibble of its header byte is its row's code
index (30_encoding.md R48, R52, opcode_table.json's `match` under the mask 0xF).
-/
namespace Sys2Proof.Laws.Header

/-- The code index of an instruction's row of the opcode table. -/
def row : Instr → Nat
  | .ns0 _ _ _ _ => 0
  | .ns1 _ _ _ _ => 1
  | .ns2 _ _ _ _ => 2
  | .ns3 _ _ _ _ => 3
  | .sc _ _ _ _ => 4
  | .e1 _ _ _ _ => 5
  | .e2 _ _ _ _ => 6
  | .e3 _ _ _ _ => 7
  | .ns8 _ _ _ _ => 8
  | .ns9 _ _ _ _ => 9
  | .nsA _ _ _ _ => 10
  | .nsB _ _ _ _ => 11
  | .nsC _ _ _ _ => 12
  | .nsD _ _ _ _ => 13
  | .nsE _ _ _ _ => 14
  | .nsF _ _ _ _ => 15

/-- The encoding's header byte carries the row's code index. -/
def Statement (i : Instr) : Prop := (lowNibble (encode i).b0).toNat = row i

/-- ENCODE puts the event's code index in the header's low nibble (R61). -/
theorem header_cin (i : Instr) : (lowNibble (encode i).b0).toNat = i.event.cin.toNat :=
  congrArg BitVec.toNat (lowNibble_append _ _)

theorem sc (c : Nibble) (d0 d1 d2 : Byte) : Statement (.sc c d0 d1 d2) :=
  header_cin _

theorem e1 (c : Nibble) (d0 d1 d2 : Byte) : Statement (.e1 c d0 d1 d2) :=
  header_cin _

theorem e2 (c : Nibble) (d0 d1 d2 : Byte) : Statement (.e2 c d0 d1 d2) :=
  header_cin _

theorem e3 (c : Nibble) (d0 d1 d2 : Byte) : Statement (.e3 c d0 d1 d2) :=
  header_cin _

theorem ns0 (c : Nibble) (d0 d1 d2 : Byte) : Statement (.ns0 c d0 d1 d2) :=
  header_cin _

theorem ns1 (c : Nibble) (d0 d1 d2 : Byte) : Statement (.ns1 c d0 d1 d2) :=
  header_cin _

theorem ns2 (c : Nibble) (d0 d1 d2 : Byte) : Statement (.ns2 c d0 d1 d2) :=
  header_cin _

theorem ns3 (c : Nibble) (d0 d1 d2 : Byte) : Statement (.ns3 c d0 d1 d2) :=
  header_cin _

theorem ns8 (c : Nibble) (d0 d1 d2 : Byte) : Statement (.ns8 c d0 d1 d2) :=
  header_cin _

theorem ns9 (c : Nibble) (d0 d1 d2 : Byte) : Statement (.ns9 c d0 d1 d2) :=
  header_cin _

theorem nsA (c : Nibble) (d0 d1 d2 : Byte) : Statement (.nsA c d0 d1 d2) :=
  header_cin _

theorem nsB (c : Nibble) (d0 d1 d2 : Byte) : Statement (.nsB c d0 d1 d2) :=
  header_cin _

theorem nsC (c : Nibble) (d0 d1 d2 : Byte) : Statement (.nsC c d0 d1 d2) :=
  header_cin _

theorem nsD (c : Nibble) (d0 d1 d2 : Byte) : Statement (.nsD c d0 d1 d2) :=
  header_cin _

theorem nsE (c : Nibble) (d0 d1 d2 : Byte) : Statement (.nsE c d0 d1 d2) :=
  header_cin _

theorem nsF (c : Nibble) (d0 d1 d2 : Byte) : Statement (.nsF c d0 d1 d2) :=
  header_cin _

end Sys2Proof.Laws.Header
end

