-- ==== Sys2Proof/Laws/Step.lean ====
section
/-!
SUPPORT. What a step can do, said once (30_encoding.md R55): each operation with the
condition under which it happens. Every claim about `step` starts from here.
-/
namespace Sys2Proof.Machine

/-- What the operation `r` does when it answers a next state. -/
inductive Performed : Request → State → State → Prop where
  | packet {s : State} {p : Packet} {as : List Answer} {t : State}
      (hs : s.feedAnswers.rxStream = .packet p :: as)
      (h : exec (decode p) (s.feedAnswers.setStream as).endInit = .next t) :
      Performed .rxPoll s t
  | quiet {s : State} (hr : s.rxState = .idle) (ht : s.txState = .idle) :
      Performed .rxPoll s (s.feedAnswers.setStream s.feedAnswers.rxStream.tail).endInit
  | count {s : State} (hr : s.rxState = .accumulating) (ht : s.txState = .idle)
      (hp : s.rxPolls + 1 < s.cfg.timeoutBudget) :
      Performed .rxPoll s
        (((s.feedAnswers.setStream s.feedAnswers.rxStream.tail).endInit).setRxPolls
          (s.rxPolls + 1))
  | expire {s : State} (hr : s.rxState = .accumulating) (ht : s.txState = .idle)
      (hp : s.cfg.timeoutBudget ≤ s.rxPolls + 1) :
      Performed .rxPoll s
        (((s.feedAnswers.setStream s.feedAnswers.rxStream.tail).endInit).raise .timeout)
  | release {s : State} (hr : s.rxState = .done ∨ s.rxState = .timedOut)
      (ht : s.txState = .idle) : Performed .rxRelease s s.release
  | start {s : State} {c : Nibble} {n : Nat} {r : PayRef} (ht : s.txState = .idle)
      (hr : s.rxState ≠ .accumulating) : Performed (.txStart c n r) s (s.beginSend c n r)
  | send {s : State} (ht : s.txState = .sending) : Performed .txStep s s.sendNext
  | reset {s : State} : Performed .reset s s.resetBlock
  | register {s : State} {k : Byte} {cb : Callback} (hi : s.initPhase = true)
      (ht : s.txState = .idle) (hr : s.rxState ≠ .accumulating) :
      Performed (.register k cb) s (s.registerCommand k cb)
  | dispatch {s : State} (hr : s.rxState = .done) (ht : s.txState = .idle) :
      Performed .dispatch s s.dispatchResult
  | payWrite {s : State} {i : Nat} {b : Byte} : Performed (.payWrite i b) s (s.writePay i b)

/-- An answer already listed is the next one: nothing is fed. -/
theorem State.feedAnswers_listed {s : State} {a : Answer} {as : List Answer}
    (h : s.rxStream = a :: as) : s.feedAnswers = s := by
  obtain ⟨⟩ := s; cases h; rfl

/-- Where no answer is ever to come, nothing is fed. -/
theorem State.feedAnswers_none {s : State} (h : s.rxStream = [])
    (ha : s.answersAfter = .repeats []) : s.feedAnswers = s := by
  obtain ⟨⟩ := s; cases h; cases ha; rfl

/-- Answers that repeat: they go on repeating, and the next ones are the listed ones, or all
of them again. -/
theorem State.feedAnswers_repeats {s : State} {again : List Answer}
    (h : s.answersAfter = .repeats again) :
    s.feedAnswers.answersAfter = .repeats again ∧
      (s.feedAnswers.rxStream = s.rxStream ∨
        (s.rxStream = [] ∧ s.feedAnswers.rxStream = again)) := by
  cases hs : s.rxStream with
  | cons a as => rw [State.feedAnswers_listed hs]; exact ⟨h, .inl hs⟩
  | nil => unfold State.feedAnswers; rw [h, hs]; exact ⟨rfl, .inr ⟨rfl, rfl⟩⟩

/-- A request already listed is the next one: nothing is fed. -/
theorem State.feedRequests_listed {s : State} {r : Request} {rs : List Request}
    (h : s.requests = r :: rs) : s.feedRequests = s := by
  obtain ⟨⟩ := s; cases h; rfl

/-- Where nothing is ever requested, nothing is fed. -/
theorem State.feedRequests_unasked {s : State} (h : s.unasked) : s.feedRequests = s := by
  obtain ⟨⟩ := s; obtain ⟨h, ha⟩ := h; cases h; cases ha; rfl

/-- The next request is the next step (R9). -/
theorem step_fed {s : State} {r : Request} {rs : List Request}
    (h : s.feedRequests.requests = r :: rs) :
    step s = perform r (s.feedRequests.setRequests rs) := by
  unfold step runNext; rw [h]

/-- A listed request is the next step. -/
theorem step_request {s : State} {r : Request} {rs : List Request} (h : s.requests = r :: rs) :
    step s = perform r (s.setRequests rs) := by
  have e := State.feedRequests_listed h
  rw [step_fed (by rw [e]; exact h), e]

/-- With no request to come now, the block goes on. -/
theorem step_goOn {s : State} (h : s.feedRequests.requests = []) :
    step s = goOn s.feedRequests := by
  unfold step runNext; rw [h]

theorem step_unasked {s : State} (h : s.unasked) : step s = goOn s := by
  have e := State.feedRequests_unasked h
  rw [step_goOn (by rw [e]; exact h.1), e]

/-- With nothing requested, a send goes on (R92). -/
theorem step_sending {s : State} (h : s.unasked) (ht : s.txState = .sending) :
    step s = .next s.sendNext := by
  rw [step_unasked h]
  unfold goOn; rw [ht]
  show State.guarded s.txStepEnabled _ _ = _
  rw [show s.txStepEnabled = true by simp [State.txStepEnabled, ht], State.guarded_true]

/-- With nothing requested, the block is polled in Idle and polls in Accumulating (R70). -/
theorem step_polling {s : State} (h : s.unasked) (ht : s.txState = .idle)
    (hr : s.rxState = .idle ∨ s.rxState = .accumulating) : step s = rxPoll s := by
  rw [step_unasked h]
  unfold goOn; rw [ht]; rcases hr with hr | hr <;> rw [hr]

/-- A poll fed with a packet runs it (R70). -/
theorem rxPoll_fed_packet {s : State} {p : Packet} {as : List Answer}
    (h : s.feedAnswers.rxStream = .packet p :: as) :
    rxPoll s = exec (decode p) (s.feedAnswers.setStream as).endInit := by
  unfold rxPoll; rw [h]

/-- A poll fed with not-ready. -/
theorem rxPoll_fed_notReady {s : State} {as : List Answer}
    (h : s.feedAnswers.rxStream = .notReady :: as) :
    rxPoll s = notReady (s.feedAnswers.setStream as).endInit := by
  unfold rxPoll; rw [h]

/-- A poll fed with nothing is answered not-ready. -/
theorem rxPoll_unfed {s : State} (h : s.feedAnswers.rxStream = []) :
    rxPoll s = notReady s.feedAnswers.endInit := by
  unfold rxPoll; rw [h]

theorem rxPoll_packet {s : State} {p : Packet} {as : List Answer}
    (h : s.rxStream = .packet p :: as) :
    rxPoll s = exec (decode p) (s.setStream as).endInit := by
  have e := State.feedAnswers_listed h
  rw [rxPoll_fed_packet (by rw [e]; exact h), e]

theorem rxPoll_notReady {s : State} {as : List Answer} (h : s.rxStream = .notReady :: as) :
    rxPoll s = notReady (s.setStream as).endInit := by
  have e := State.feedAnswers_listed h
  rw [rxPoll_fed_notReady (by rw [e]; exact h), e]

theorem notReady_idle {s : State} (hr : s.rxState = .idle) (ht : s.txState = .idle) :
    notReady s = .next s := by
  unfold notReady; rw [hr, ht]

theorem notReady_accumulating {s : State} (hr : s.rxState = .accumulating)
    (ht : s.txState = .idle) :
    notReady s = .next (if s.cfg.timeoutBudget ≤ s.rxPolls + 1 then s.raise .timeout
      else s.setRxPolls (s.rxPolls + 1)) := by
  unfold notReady; rw [hr, ht]

/-- REGISTER touches the command table and its results alone (R102). -/
theorem State.registerCommand_frame (s : State) (k : Byte) (cb : Callback) :
    s.registerCommand k cb = { s with
      cmdTable := (s.registerCommand k cb).cmdTable
      regOut := (s.registerCommand k cb).regOut } := by
  unfold State.registerCommand; split <;> rfl

/-- DISPATCH raises no condition of the block (R103, R114). -/
theorem route_raised {ident : Byte} {table : KMap Callback} {payload : List Byte}
    {c : Condition} (h : route ident table payload = .raised c) :
    c = .unaddressedMessage ∨ c = .unknownCommand := by
  unfold route at h
  split at h
  · injection h with h; exact .inl h.symm
  · injection h with h; exact .inl h.symm
  · split at h
    · split at h
      · cases h
      · injection h with h; exact .inr h.symm
    · injection h with h; exact .inl h.symm

/-- DISPATCH touches the invocations alone (R103). -/
theorem State.dispatchResult_frame (s : State) :
    s.dispatchResult = { s with callOut := s.dispatchResult.callOut } := by
  unfold State.dispatchResult
  split
  next c h => rcases route_raised h with rfl | rfl <;> rfl
  next => rfl

/-- TX_STEP touches the Fragmenter's cursor and state and `tx_out` alone (R92). -/
theorem State.sendNext_frame (s : State) :
    s.sendNext = { s with
      txOut := s.sendNext.txOut, txCursor := s.sendNext.txCursor
      txState := s.sendNext.txState } := by
  unfold State.sendNext; split <;> rfl

theorem notReady_cases {s t : State} (h : notReady s = .next t) :
    s.txState = .idle ∧ ((s.rxState = .idle ∧ t = s) ∨
      (s.rxState = .accumulating ∧ s.rxPolls + 1 < s.cfg.timeoutBudget ∧
        t = s.setRxPolls (s.rxPolls + 1)) ∨
      (s.rxState = .accumulating ∧ s.cfg.timeoutBudget ≤ s.rxPolls + 1 ∧
        t = s.raise .timeout)) := by
  unfold notReady at h
  cases hr : s.rxState <;> cases ht : s.txState <;> simp only [hr, ht] at h <;> cases h
  · simp
  · by_cases hb : s.cfg.timeoutBudget ≤ s.rxPolls + 1
    · simp [hb]
    · simp [hb, Nat.lt_of_not_le hb]

theorem rxPoll_performed {s t : State} (h : rxPoll s = .next t) : Performed .rxPoll s t := by
  have quiet : ∀ as, s.feedAnswers.rxStream.tail = as →
      notReady (s.feedAnswers.setStream as).endInit = .next t → Performed .rxPoll s t := by
    rintro as rfl h
    obtain ⟨ht, ⟨hr, rfl⟩ | ⟨hr, hp, rfl⟩ | ⟨hr, hp, rfl⟩⟩ := notReady_cases h
    · exact .quiet hr ht
    · exact .count hr ht hp
    · exact .expire hr ht hp
  cases hs : s.feedAnswers.rxStream with
  | nil =>
    rw [rxPoll_unfed hs] at h
    refine quiet [] (by rw [hs]; rfl) (h ▸ ?_)
    rw [← hs]; rfl
  | cons a as =>
    cases a with
    | packet p => rw [rxPoll_fed_packet hs] at h; exact .packet hs h
    | notReady =>
      rw [rxPoll_fed_notReady hs] at h
      exact quiet as (by rw [hs]; rfl) h

/-- Everything a requested operation can do when it answers a next state. -/
theorem perform_performed {r : Request} {s t : State} (h : perform r s = .next t) :
    Performed r s t := by
  cases r with
  | rxPoll => exact rxPoll_performed h
  | rxRelease =>
    obtain ⟨he, rfl⟩ := State.guarded_next h
    simp only [State.rxReleaseEnabled, State.rxResultReady, Bool.and_eq_true, Bool.or_eq_true,
      beq_iff_eq] at he
    exact .release he.1 he.2
  | txStart c n ref =>
    obtain ⟨he, rfl⟩ := State.guarded_next h
    simp only [State.txStartEnabled, Bool.and_eq_true, beq_iff_eq, bne_iff_ne] at he
    exact .start he.1 he.2
  | txStep =>
    obtain ⟨he, rfl⟩ := State.guarded_next h
    exact .send (by simpa [State.txStepEnabled] using he)
  | reset => cases h; exact .reset
  | register k cb =>
    obtain ⟨he, rfl⟩ := State.guarded_next h
    simp only [State.registerEnabled, Bool.and_eq_true, beq_iff_eq, bne_iff_ne] at he
    exact .register he.1.1 he.1.2 he.2
  | dispatch =>
    obtain ⟨he, rfl⟩ := State.guarded_next h
    simp only [State.dispatchEnabled, Bool.and_eq_true, beq_iff_eq] at he
    exact .dispatch he.1 he.2
  | payWrite i b => cases h; exact .payWrite

/-- Everything a step can do when it answers a next state: the next request, or with none
to come now the block's own send or poll. -/
theorem step_cases {s t : State} (h : step s = .next t) :
    (∃ r rs, s.feedRequests.requests = r :: rs ∧
      Performed r (s.feedRequests.setRequests rs) t) ∨
    (s.feedRequests.requests = [] ∧ s.txState = .sending ∧
      Performed .txStep s.feedRequests t) ∨
    (s.feedRequests.requests = [] ∧ s.txState = .idle ∧
      (s.rxState = .idle ∨ s.rxState = .accumulating) ∧
      Performed .rxPoll s.feedRequests t) := by
  cases hq : s.feedRequests.requests with
  | cons r rs => rw [step_fed hq] at h; exact .inl ⟨r, rs, rfl, perform_performed h⟩
  | nil =>
    rw [step_goOn hq] at h
    unfold goOn at h
    simp only [State.feedRequests_txState, State.feedRequests_rxState] at h
    cases ht : s.txState <;> cases hr : s.rxState <;> simp only [ht, hr] at h
    case idle.idle => exact .inr (.inr ⟨rfl, rfl, .inl rfl, rxPoll_performed h⟩)
    case idle.accumulating => exact .inr (.inr ⟨rfl, rfl, .inr rfl, rxPoll_performed h⟩)
    case idle.done => cases h
    case idle.timedOut => cases h
    all_goals exact .inr (.inl ⟨rfl, rfl, perform_performed (r := .txStep) h⟩)

end Sys2Proof.Machine
end

