-- ==== Sys2Proof/Laws/Run.lean ====
section
/-!
SUPPORT. Runs of several steps, with nothing requested: how runs compose, and what a
block does by itself on one answer of the transport or on a gap of not-ready answers
(41_sysex_reassembler.md R70, R71, R77).
-/
namespace Sys2Proof.Machine

/-- One step, then the rest. -/
theorem run_next {k : Nat} {s t : State} (h : step s = .next t) :
    core.run (k + 1) s = core.run k t := by
  have general : ∀ (M : Host.Core) (s t : M.State), M.step s = .next t →
      M.run (k + 1) s = M.run k t := fun M s t h => by rw [Host.Core.run, h]
  exact general core s t h

theorem run_zero (s : State) : core.run 0 s = .next s := rfl

/-- A run of `j` steps that goes through, then the rest. -/
theorem run_add {j : Nat} (k : Nat) {s t : State} (h : core.run j s = .next t) :
    core.run (j + k) s = core.run k t := by
  have general : ∀ (M : Host.Core) (j : Nat) (s t : M.State), M.run j s = .next t →
      M.run (j + k) s = M.run k t := by
    intro M j
    induction j with
    | zero => intro s t h; cases h; rw [Nat.zero_add]
    | succ j ih =>
      intro s t h
      rw [Nat.succ_add, Nat.succ_eq_add_one]
      rw [Host.Core.run] at h ⊢
      cases hs : M.step s with
      | next u => rw [hs] at h; exact ih u t h
      | fault r => rw [hs] at h; cases h
      | refused r => rw [hs] at h; cases h
  exact general core j s t h

/-- Where a condition always allows a step that keeps it, a run of any length is possible. -/
theorem run_forever (G : State → Prop) (h : ∀ s, G s → ∃ t, step s = .next t ∧ G t) (k : Nat) :
    ∀ s, G s → ∃ t, core.run k s = .next t ∧ G t := by
  induction k with
  | zero => exact fun s g => ⟨s, rfl, g⟩
  | succ k ih =>
    intro s g
    obtain ⟨t, h1, g1⟩ := h s g
    obtain ⟨u, h2, g2⟩ := ih t g1
    exact ⟨u, (run_next h1).trans h2, g2⟩

/-- The block by itself, in Idle or Accumulating, on a packet. -/
theorem step_own_packet {s : State} {p : Packet} {as : List Answer} (hq : s.unasked)
    (hr : s.rxState = .idle ∨ s.rxState = .accumulating) (ht : s.txState = .idle)
    (hs : s.rxStream = .packet p :: as) :
    step s = exec (decode p) { s with rxStream := as, initPhase := false } := by
  rw [step_polling hq ht hr, rxPoll_packet hs]; rfl

/-- A gap of not-ready answers in Idle, of any length. -/
theorem run_gap_idle (k : Nat) {s : State} {as : List Answer} (hq : s.unasked)
    (hr : s.rxState = .idle) (ht : s.txState = .idle)
    (hs : s.rxStream = List.replicate k .notReady ++ as) :
    core.run k s = .next { s with
      rxStream := as, initPhase := if k = 0 then s.initPhase else false } := by
  induction k generalizing s with
  | zero => rw [run_zero]; obtain ⟨⟩ := s; cases hs; rfl
  | succ k ih =>
    have h1 : step s = .next { s with
        rxStream := List.replicate k .notReady ++ as, initPhase := false } := by
      rw [step_polling hq ht (.inl hr),
        rxPoll_notReady (as := List.replicate k .notReady ++ as) (by rw [hs]; rfl)]
      exact notReady_idle (by exact hr) (by exact ht)
    rw [run_next h1, ih (by exact hq) (by exact hr) (by exact ht) rfl]
    congr 2
    show (if k = 0 then false else false) = _; simp

/-- A gap of not-ready answers in Accumulating, within the budget. -/
theorem run_gap_accumulating (k : Nat) {s : State} {as : List Answer} (hq : s.unasked)
    (hr : s.rxState = .accumulating) (ht : s.txState = .idle)
    (hs : s.rxStream = List.replicate k .notReady ++ as)
    (hp : s.rxPolls + k < s.cfg.timeoutBudget) :
    core.run k s = .next { s with
      rxStream := as, initPhase := if k = 0 then s.initPhase else false
      rxPolls := s.rxPolls + k } := by
  induction k generalizing s with
  | zero => rw [run_zero]; obtain ⟨⟩ := s; cases hs; rfl
  | succ k ih =>
    have h1 : step s = .next { s with
        rxStream := List.replicate k .notReady ++ as, initPhase := false
        rxPolls := s.rxPolls + 1 } := by
      rw [step_polling hq ht (.inr hr),
        rxPoll_notReady (as := List.replicate k .notReady ++ as) (by rw [hs]; rfl),
        notReady_accumulating (by exact hr) (by exact ht), if_neg (by simp; omega)]
      rfl
    rw [run_next h1, ih (by exact hq) (by exact hr) (by exact ht) rfl (by simp; omega)]
    congr 2
    · show s.rxPolls + 1 + k = _; omega
    · show (if k = 0 then false else false) = _; simp

theorem deliver_append (a b : List (Nat × Packet)) :
    deliver (a ++ b) = deliver a ++ deliver b := by
  induction a with
  | nil => rfl
  | cons x a ih => obtain ⟨g, p⟩ := x; simp [deliver, ih]

end Sys2Proof.Machine
end

