-- ==== Sys2Proof/Tests/Slice0.lean ====
section
/-!
SUPPORT. Tests of one step each, with expected values from spec/95_test_vectors.md (their
ids stand in the comments) or worked out by hand from the rules; and, for each obligation
with hypotheses, states and operands that meet them (`witness_<obligation>`).
-/
namespace Sys2Proof.Tests

open Sys2Proof Sys2Proof.Machine

/-! ## Helpers -/

/-- A device right after reset, in an environment that does nothing but what is listed. -/
def devOf (c : Config) : State :=
  { State.resetOf c with answersAfter := .repeats [], requestsAfter := .repeats [] }

/-- One with `IDENT` = 0x1B, `CMD_MAX` = 4. -/
def dev (cap budget : Nat) : State := devOf ⟨cap, budget, 0x1B#8, 4⟩

/-- The cells of bytes stored from index 0. -/
def cells (bs : List Byte) : Memory := (List.range bs.length).zip bs

/-- In the middle of a reassembly that stored `bs`. -/
def accum (s : State) (bs : List Byte) (polls : Nat) (overflow : Bool) : State :=
  { s with
    rxState := .accumulating, rxBuf := cells bs, rxLen := bs.length, rxPolls := polls
    rxOverflow := overflow, initPhase := false }

/-- With a clean result `bs`. -/
def result (s : State) (bs : List Byte) : State :=
  { s with rxState := .done, rxBuf := cells bs, rxLen := bs.length, initPhase := false }

/-- In the middle of a send of the requester's bytes `bs`. -/
def sends (s : State) (cable : Nibble) (bs : List Byte) (cursor : Nat) : State :=
  { s with
    txState := .sending, txPay := cells bs, txLen := bs.length, txCable := cable
    txCursor := cursor }

/-- With one request waiting. -/
def asks (s : State) (r : Request) : State := { s with requests := [r] }

/-- With one answer waiting in the transport and a poll requested. -/
def answers (s : State) (a : Answer) : State :=
  { s with requests := [.rxPoll], rxStream := [a] }

/-- The next state of an outcome. -/
def nextOf : Host.Outcome State Fault Refusal → Option State
  | .next t => some t
  | .fault _ => none
  | .refused _ => none

/-- The refusal of an outcome. -/
def refusalOf : Host.Outcome State Fault Refusal → Option Refusal
  | .next _ => none
  | .fault _ => none
  | .refused r => some r

/-- The six elements of the reassembler. -/
structure Rx where
  state : RxState
  len : Nat
  polls : Nat
  overflow : Bool
  malformed : Bool
  buf : Memory
  deriving DecidableEq, Repr

/-- What the reassembler holds. -/
def rx (s : State) : Rx :=
  ⟨s.rxState, s.rxLen, s.rxPolls, s.rxOverflow, s.rxMalformed, s.rxBuf⟩

/-- The reassembler and the traces after one step. -/
def rxAfter (s : State) : Option (Rx × List Diag × List Event) :=
  (nextOf (step s)).map (fun t => (rx t, t.diagOut, t.evtOut))

/-- The Fragmenter and the packets sent after one step. -/
def txAfter (s : State) : Option (TxState × Nat × List (List Byte)) :=
  (nextOf (step s)).map (fun t => (t.txState, t.txCursor, t.txOut.map Packet.bytes))

/-- A packet from its four bytes. -/
def pk (b0 b1 b2 b3 : Byte) : Packet := ⟨b0, b1, b2, b3⟩

/-! ## WellFormed: an ill-formed term for each check -/

/-- U16. -/
theorem test_budget_zero_refused : Config.wf ⟨8, 0, 0x1B#8, 4⟩ = false := by decide
theorem test_budget_one_accepted : Config.wf ⟨0, 1, 0x1B#8, 0⟩ = true := by decide
/-- U5. -/
theorem test_wide_cin_refused : EncodeArgs.wf ⟨16, 0, 0, 0, 0⟩ = false := by decide
theorem test_wide_cable_refused : EncodeArgs.wf ⟨4, 16, 0, 0, 0⟩ = false := by decide
theorem test_wide_b0_refused : EncodeArgs.wf ⟨4, 0, 256, 0, 0⟩ = false := by decide
theorem test_wide_b1_refused : EncodeArgs.wf ⟨4, 0, 0, 256, 0⟩ = false := by decide
theorem test_wide_b2_refused : EncodeArgs.wf ⟨4, 0, 0, 0, 256⟩ = false := by decide
theorem test_widest_args_accepted : EncodeArgs.wf ⟨15, 15, 255, 255, 255⟩ = true := by decide
/-- R52: no packet is illegal. -/
theorem test_every_kind_wf : Instr.wf (.nsF 15#4 0xFF#8 0xFF#8 0xFF#8) = true := by decide

/-! ## Decoding: one word written out for every constructor (R45, R48, R52) -/

/-- V-C1. -/
theorem test_decode_sc :
    decodeBytes [0x04#8, 0xF0#8, 0x1B#8, 0x01#8] = .ok (.sc 0#4 0xF0#8 0x1B#8 0x01#8) := by rfl
/-- V-C3. -/
theorem test_decode_e1 :
    decodeBytes [0xF5#8, 0xF7#8, 0x00#8, 0x00#8] = .ok (.e1 15#4 0xF7#8 0x00#8 0x00#8) := by rfl
/-- V-C8. -/
theorem test_decode_e2 :
    decodeBytes [0x26#8, 0x13#8, 0xF7#8, 0x00#8] = .ok (.e2 2#4 0x13#8 0xF7#8 0x00#8) := by rfl
/-- V-C2. -/
theorem test_decode_e3 :
    decodeBytes [0x37#8, 0xAA#8, 0xBB#8, 0xF7#8] = .ok (.e3 3#4 0xAA#8 0xBB#8 0xF7#8) := by rfl
/-- V-C5. -/
theorem test_decode_ns0 :
    decodeBytes [0x00#8, 0x00#8, 0x00#8, 0x00#8] = .ok (.ns0 0#4 0x00#8 0x00#8 0x00#8) := by rfl
theorem test_decode_ns1 :
    decodeBytes [0x21#8, 0x12#8, 0x34#8, 0x56#8] = .ok (.ns1 2#4 0x12#8 0x34#8 0x56#8) := by rfl
theorem test_decode_ns2 :
    decodeBytes [0x12#8, 0xF1#8, 0x40#8, 0x00#8] = .ok (.ns2 1#4 0xF1#8 0x40#8 0x00#8) := by rfl
theorem test_decode_ns3 :
    decodeBytes [0x43#8, 0xF2#8, 0x10#8, 0x20#8] = .ok (.ns3 4#4 0xF2#8 0x10#8 0x20#8) := by rfl
theorem test_decode_ns8 :
    decodeBytes [0x88#8, 0x80#8, 0x3C#8, 0x40#8] = .ok (.ns8 8#4 0x80#8 0x3C#8 0x40#8) := by rfl
/-- V-C4. -/
theorem test_decode_ns9 :
    decodeBytes [0x09#8, 0x90#8, 0x3C#8, 0x7F#8] = .ok (.ns9 0#4 0x90#8 0x3C#8 0x7F#8) := by rfl
theorem test_decode_nsA :
    decodeBytes [0x5A#8, 0xA0#8, 0x3C#8, 0x11#8] = .ok (.nsA 5#4 0xA0#8 0x3C#8 0x11#8) := by rfl
theorem test_decode_nsB :
    decodeBytes [0x0B#8, 0xB0#8, 0x07#8, 0x7F#8] = .ok (.nsB 0#4 0xB0#8 0x07#8 0x7F#8) := by rfl
theorem test_decode_nsC :
    decodeBytes [0xDC#8, 0xC5#8, 0x09#8, 0x00#8] = .ok (.nsC 13#4 0xC5#8 0x09#8 0x00#8) := by rfl
theorem test_decode_nsD :
    decodeBytes [0xCD#8, 0xD3#8, 0x33#8, 0x00#8] = .ok (.nsD 12#4 0xD3#8 0x33#8 0x00#8) := by rfl
theorem test_decode_nsE :
    decodeBytes [0x7E#8, 0xE0#8, 0x00#8, 0x40#8] = .ok (.nsE 7#4 0xE0#8 0x00#8 0x40#8) := by rfl
/-- V-C6. -/
theorem test_decode_nsF :
    decodeBytes [0xFF#8, 0xFF#8, 0xFF#8, 0xFF#8] = .ok (.nsF 15#4 0xFF#8 0xFF#8 0xFF#8) := by rfl
/-- R32. -/
theorem test_decode_three_bytes :
    decodeBytes [0x04#8, 0xF0#8, 0x1B#8] = .error (.notFourBytes 3) := by rfl
/-- R54, V-C7: the word of `SC {F0, 1B, 01}`. -/
theorem test_decode_word :
    decodeTableWord 32 0x011BF004 = some (.sc 0#4 0xF0#8 0x1B#8 0x01#8) := by rfl
/-- The bits above `nbits` are zero. -/
theorem test_decode_short_word :
    decodeTableWord 8 0xFFFFFF27 = some (.e3 2#4 0x00#8 0x00#8 0x00#8) := by rfl
/-- V-C12. -/
theorem test_encode_e3 :
    encodeBytes (.e3 9#4 0x12#8 0x34#8 0x56#8) = [0x97#8, 0x12#8, 0x34#8, 0x56#8] := by decide
/-- V-C9, with its word. -/
theorem test_encode_word : (encode (.e1 15#4 0xF7#8 0x00#8 0x00#8)).word = 0x0000F7F5#32 := by
  decide
/-- V-C10 from plain numbers. -/
theorem test_encode_args : encodeArgs? ⟨15, 15, 255, 255, 255⟩ =
    some (pk 0xFF#8 0xFF#8 0xFF#8 0xFF#8) := by decide

/-! ## The packet kinds, one step each -/

/-- V-RX1, first poll. -/
theorem test_sc_starts : rxAfter (answers (dev 8 2) (.packet (pk 0x04#8 0xF0#8 0x1B#8 0x01#8))) =
    some (⟨.accumulating, 2, 0, false, false, [(0, 0x1B#8), (1, 0x01#8)]⟩, [], []) := by decide
/-- V-RX10, second poll: the third byte is rejected. -/
theorem test_sc_overflows : rxAfter (answers (accum (dev 4 2) [0x01#8, 0x02#8] 1 false)
      (.packet (pk 0x04#8 0x03#8 0x04#8 0x05#8))) =
    some (⟨.accumulating, 4, 0, true, false, cells [0x01#8, 0x02#8, 0x03#8, 0x04#8]⟩,
      [.overflow], []) := by decide
/-- V-RX13: with no buffer the starting packet overflows, once. -/
theorem test_no_capacity : rxAfter (answers (dev 0 2) (.packet (pk 0x04#8 0xF0#8 0x01#8 0x02#8))) =
    some (⟨.accumulating, 0, 0, true, false, []⟩, [.overflow], []) := by decide
/-- V-RX4, last poll: the cable and the end slot are not looked at. -/
theorem test_e3_ends : rxAfter (answers
      (accum (dev 8 2) [0x80#8, 0xF7#8, 0xF0#8, 0xF7#8, 0xFF#8] 0 false)
      (.packet (pk 0x97#8 0x01#8 0x02#8 0x03#8))) =
    some (⟨.done, 7, 0, false, false,
      cells [0x80#8, 0xF7#8, 0xF0#8, 0xF7#8, 0xFF#8, 0x01#8, 0x02#8]⟩, [], []) := by decide
/-- V-RX11: overflow inside the end packet. -/
theorem test_e3_overflows : rxAfter (answers (accum (dev 3 2) [0x0A#8, 0x0B#8] 0 false)
      (.packet (pk 0x07#8 0x0C#8 0x0D#8 0xF7#8))) =
    some (⟨.done, 0, 0, true, false, cells [0x0A#8, 0x0B#8, 0x0C#8]⟩, [.overflow], []) := by decide
/-- V-RX2, second poll. -/
theorem test_e2_ends : rxAfter (answers (accum (dev 8 2) [0x11#8, 0x12#8] 0 false)
      (.packet (pk 0x06#8 0x13#8 0xF7#8 0x00#8))) =
    some (⟨.done, 3, 0, false, false, cells [0x11#8, 0x12#8, 0x13#8]⟩, [], []) := by decide
/-- V-RX10, third poll: discarded, no second diagnostic. -/
theorem test_e2_discards : rxAfter (answers
      (accum (dev 4 2) [0x01#8, 0x02#8, 0x03#8, 0x04#8] 0 true)
      (.packet (pk 0x06#8 0x06#8 0xF7#8 0x00#8))) =
    some (⟨.done, 0, 0, true, false, cells [0x01#8, 0x02#8, 0x03#8, 0x04#8]⟩, [], []) := by decide
/-- V-RX12: an exact fit. -/
theorem test_e1_ends : rxAfter (answers
      (accum (dev 5 2) [0x01#8, 0x02#8, 0x03#8, 0x04#8, 0x05#8] 1 false)
      (.packet (pk 0x05#8 0xF7#8 0x00#8 0x00#8))) =
    some (⟨.done, 5, 0, false, false, cells [0x01#8, 0x02#8, 0x03#8, 0x04#8, 0x05#8]⟩, [], []) := by
  decide
/-- V-RX5: a whole one-byte SysEx message in Idle is passed through. -/
theorem test_e3_idle : rxAfter (answers (dev 8 2) (.packet (pk 0x07#8 0xF0#8 0x55#8 0xF7#8))) =
    some (⟨.idle, 0, 0, false, false, []⟩, [], [⟨0#4, 0x7#4, 0xF0#8, 0x55#8, 0xF7#8⟩]) := by decide
/-- V-RX5. -/
theorem test_e2_idle : rxAfter (answers (dev 8 2) (.packet (pk 0x06#8 0xF0#8 0xF7#8 0x00#8))) =
    some (⟨.idle, 0, 0, false, false, []⟩, [], [⟨0#4, 0x6#4, 0xF0#8, 0xF7#8, 0x00#8⟩]) := by decide
/-- V-RX5. -/
theorem test_e1_idle : rxAfter (answers (dev 8 2) (.packet (pk 0x05#8 0xF8#8 0x00#8 0x00#8))) =
    some (⟨.idle, 0, 0, false, false, []⟩, [], [⟨0#4, 0x5#4, 0xF8#8, 0x00#8, 0x00#8⟩]) := by decide
/-- V-RX5. -/
theorem test_ns9_idle : rxAfter (answers (dev 8 2) (.packet (pk 0x09#8 0x90#8 0x3C#8 0x7F#8))) =
    some (⟨.idle, 0, 0, false, false, []⟩, [], [⟨0#4, 0x9#4, 0x90#8, 0x3C#8, 0x7F#8⟩]) := by decide
/-- V-RX15, last poll: both flags end up set. -/
theorem test_nsB_after_overflow : rxAfter (answers (accum (dev 2 2) [0x1B#8, 0x01#8] 0 true)
      (.packet (pk 0x0B#8 0xB0#8 0x07#8 0x7F#8))) =
    some (⟨.done, 0, 0, true, true, cells [0x1B#8, 0x01#8]⟩, [.malformed], []) := by decide
/-- V-RX6: the same end state from every one of the twelve kinds. -/
theorem test_ns_malformed : ∀ h ∈ [0x00#8, 0x01#8, 0x02#8, 0x03#8, 0x08#8, 0x09#8, 0x0A#8, 0x0B#8,
      0x0C#8, 0x0D#8, 0x0E#8, 0x0F#8],
    rxAfter (answers (accum (dev 8 2) [0x1B#8, 0x01#8] 0 false)
      (.packet (pk h 0x90#8 0x3C#8 0x7F#8))) =
    some (⟨.done, 0, 0, false, true, cells [0x1B#8, 0x01#8]⟩, [.malformed], []) := by decide
/-- V-RX16: a malformed message's flag is cleared by the next start. -/
theorem test_sc_clears_flags : rxAfter (answers { dev 8 2 with rxMalformed := true }
      (.packet (pk 0x04#8 0xF0#8 0x21#8 0x22#8))) =
    some (⟨.accumulating, 2, 0, false, false, cells [0x21#8, 0x22#8]⟩, [], []) := by decide

/-! ## Not ready, release, enabling -/

/-- V-RX7, fourth poll. -/
theorem test_not_ready_counts : rxAfter (answers (accum (dev 8 2) [0x1B#8] 0 false) .notReady) =
    some (⟨.accumulating, 1, 1, false, false, cells [0x1B#8]⟩, [], []) := by decide
/-- V-RX14: the overflow flag survives the timeout, with a budget of 1. -/
theorem test_times_out : rxAfter (answers (accum (dev 1 1) [0x1B#8] 0 true) .notReady) =
    some (⟨.timedOut, 0, 0, true, false, cells [0x1B#8]⟩, [.timeout], []) := by decide
/-- V-RX5: a not-ready poll in Idle is not counted. -/
theorem test_not_ready_idle : rxAfter (answers (dev 8 1) .notReady) =
    some (⟨.idle, 0, 0, false, false, []⟩, [], []) := by decide
/-- V-RX16: release keeps the length and the flags. -/
theorem test_release : rxAfter (asks { result (dev 8 2) [0x1B#8, 0x01#8] with rxMalformed := true }
      .rxRelease) =
    some (⟨.idle, 2, 0, false, true, cells [0x1B#8, 0x01#8]⟩, [], []) := by decide
/-- V-RX17. -/
theorem test_poll_refused_in_done : refusalOf (step (answers (result (dev 8 2) [0x1B#8, 0x01#8])
      (.packet (pk 0x04#8 0xF0#8 0x1B#8 0x01#8)))) = some .rxPollNotEnabled := by decide
/-- V-RX17. -/
theorem test_release_refused_in_idle :
    refusalOf (step (asks (dev 8 2) .rxRelease)) = some .rxReleaseNotEnabled := by decide
/-- C9. -/
theorem test_release_refused_in_send : refusalOf (step (asks
      (sends (result (dev 8 2) [0x1B#8, 0x01#8]) 0#4 [] 0) .rxRelease)) =
    some .rxReleaseNotEnabled := by decide

/-! ## The Fragmenter -/

/-- V-TX0. -/
theorem test_send_empty : txAfter (asks (sends (dev 8 2) 0#4 [] 0) .txStep) =
    some (.idle, 2, [[0x06#8, 0xF0#8, 0xF7#8, 0x00#8]]) := by decide
/-- V-TX1. -/
theorem test_send_one : txAfter (asks (sends (dev 8 2) 0#4 [0x11#8] 0) .txStep) =
    some (.idle, 3, [[0x07#8, 0xF0#8, 0x11#8, 0xF7#8]]) := by decide
/-- S2, second step: four bytes remain, so it is a continuation, not an end. -/
theorem test_send_middle : txAfter (asks
      (sends (dev 8 2) 0#4 [0x01#8, 0x02#8, 0x03#8, 0x04#8, 0x05#8] 3) .txStep) =
    some (.sending, 6, [[0x04#8, 0x03#8, 0x04#8, 0x05#8]]) := by decide
/-- S2, third step. -/
theorem test_send_marker : txAfter (asks
      (sends (dev 8 2) 0#4 [0x01#8, 0x02#8, 0x03#8, 0x04#8, 0x05#8] 6) .txStep) =
    some (.idle, 7, [[0x05#8, 0xF7#8, 0x00#8, 0x00#8]]) := by decide
/-- V-TX8, second step: the cable. -/
theorem test_send_cable : txAfter (asks (sends (dev 8 2) 3#4 [0x7E#8, 0x00#8, 0x7F#8] 3) .txStep) =
    some (.idle, 5, [[0x36#8, 0x7F#8, 0xF7#8, 0x00#8]]) := by decide
/-- R90: TX_START from Done latches and sends nothing. -/
theorem test_start_send : (nextOf (step (asks (result (dev 8 2) [0x1B#8, 0x01#8])
      (.txStart 5#4 3 .own)))).map
        (fun t => (t.txState, t.txCursor, t.txLen, t.txCable, t.txOut)) =
    some (.sending, 0, 3, 5#4, []) := by decide
/-- V-TX10. -/
theorem test_start_refused : refusalOf (step (asks (accum (dev 8 2) [0x1B#8, 0x01#8] 0 false)
      (.txStart 0#4 3 .own))) = some .txStartNotEnabled := by decide
/-- V-TX10. -/
theorem test_step_refused :
    refusalOf (step (asks (dev 8 2) .txStep)) = some .txStepNotEnabled := by decide
/-- R90: the echo of a received message. -/
theorem test_echo : txAfter (asks { result (dev 8 2) [0x1B#8, 0x01#8] with
      txState := .sending, txPayRef := .rxBuf, txLen := 2 } .txStep) =
    some (.sending, 3, [[0x04#8, 0xF0#8, 0x1B#8, 0x01#8]]) := by decide

/-! ## RESET and the dispatcher -/

/-- V-RS2. -/
theorem test_reset_in_send : (nextOf (step (asks
      (sends (dev 8 2) 1#4 [0x01#8, 0x02#8, 0x03#8, 0x04#8, 0x05#8] 3) .reset))).map
        (fun t => (t.txState, t.txCursor, t.txLen, t.txCable, t.txOut)) =
    some (.idle, 0, 0, 0#4, []) := by decide
/-- V-RS1. -/
theorem test_reset_in_reassembly : rxAfter (asks
      (accum (dev 8 2) [0x01#8, 0x02#8, 0x03#8, 0x04#8, 0x05#8] 1 false) .reset) =
    some (⟨.idle, 0, 0, false, false, []⟩, [], []) := by decide
/-- V-D7, second registration, with `CMD_MAX` = 1. -/
theorem test_register_full : (nextOf (step (asks { devOf ⟨8, 2, 0x1B#8, 1⟩ with
      cmdTable := [(1, ⟨10⟩)] } (.register 0x02#8 ⟨11⟩)))).map (fun t => (t.cmdTable, t.regOut)) =
    some ([(1, ⟨10⟩)], [.regFull]) := by decide
/-- V-D7, third registration: the last one wins although the table is full. -/
theorem test_register_again : (nextOf (step (asks { devOf ⟨8, 2, 0x1B#8, 1⟩ with
      cmdTable := [(1, ⟨10⟩)] } (.register 0x01#8 ⟨12⟩)))).map (fun t => (t.cmdTable, t.regOut)) =
    some ([(1, ⟨12⟩)], [.ok]) := by decide
/-- V-D1. -/
theorem test_dispatch : (nextOf (step (asks { result (dev 8 2) [0x1B#8, 0x01#8, 0xAA#8, 0xBB#8] with
      cmdTable := [(1, ⟨10⟩), (2, ⟨11⟩)] } .dispatch))).map (fun t => t.callOut) =
    some [⟨⟨10⟩, [0xAA#8, 0xBB#8]⟩] := by decide
/-- V-D2 to V-D6. -/
theorem test_route : [[0x1B#8, 0x02#8], [0x1A#8, 0x01#8, 0xAA#8], [0x1B#8, 0x7F#8, 0xAA#8], [],
      [0x1B#8]].map (route 0x1B#8 [(1, ⟨10⟩), (2, ⟨11⟩)]) =
    [.invoked ⟨⟨11⟩, []⟩, .raised .unaddressedMessage, .raised .unknownCommand,
      .raised .unaddressedMessage, .raised .unaddressedMessage] := by decide
/-- The host's way in: the first step after reset runs the packet, whatever the device. -/
theorem test_first_step : (nextOf (step (State.reset.withFetchWord 32 0x7F3C9009))).map
      (fun t => (t.rxState, t.evtOut)) =
    some (.idle, [⟨0#4, 0x9#4, 0x90#8, 0x3C#8, 0x7F#8⟩]) := by rfl
/-- R143: a held result with nothing requested is where the run ends. -/
theorem test_held : refusalOf (step (result (dev 8 2) [0x1B#8, 0x01#8])) = some .resultHeld := by
  decide
/-- R82(b): a sender's packet repeats once the listed ones are used up. -/
theorem test_repeats : (nextOf (step { accum (dev 8 1) [0x1B#8] 0 false with
      answersAfter := .repeats [.packet (pk 0x04#8 0x01#8 0x02#8 0x03#8)] })).map
        (fun t => (t.rxLen, t.rxStream, t.answersAfter)) =
    some (4, [], .repeats [.packet (pk 0x04#8 0x01#8 0x02#8 0x03#8)]) := by decide
/-- A request repeats in the same way. -/
theorem test_request_repeats : (nextOf (step { sends (dev 8 1) 0#4 [0x11#8, 0x12#8] 0 with
      requestsAfter := .repeats [.txStep, .txStep] })).map (fun t => (t.txCursor, t.requests)) =
    some (3, [.txStep]) := by decide
/-- Requests run oldest first; with none left the block polls on its own. -/
theorem test_own_poll : rxAfter { accum (dev 8 1) [0x1B#8] 0 false with
      rxStream := [.packet (pk 0x04#8 0x01#8 0x02#8 0x03#8)] } =
    some (⟨.accumulating, 4, 0, false, false, cells [0x1B#8, 0x01#8, 0x02#8, 0x03#8]⟩, [], []) := by
  decide

/-! ## Witnesses: states and operands that meet the hypotheses of the obligations -/

/-- A reassembly at every bound: length `CAP`, polls one below the budget. -/
def atBounds : State := accum (dev 2 3) [0x1B#8, 0x01#8] 2 false

/-- A send in progress from the reassembly buffer, as long as the result. -/
def echoing : State :=
  { result (dev 2 1) [0x1B#8, 0x01#8] with txState := .sending, txPayRef := .rxBuf, txLen := 2 }

theorem witness_CodecRoundTrip :
    decodeEvent (pk 0x37#8 0xAA#8 0xBB#8 0xF7#8) = decodeEvent (pk 0x37#8 0xAA#8 0xBB#8 0xF7#8) := by
  rfl

theorem witness_InstrEncodeDecode :
    decodeBytes [0xF5#8, 0xF7#8, 0x00#8, 0x00#8] = .ok (.e1 15#4 0xF7#8 0x00#8 0x00#8) := by rfl

theorem witness_ExactlyFourBytesDecode :
    [0x04#8, 0x00#8, 0x00#8, 0x00#8].length = 4 ∧ ([] : List Byte).length ≠ 4 ∧
      [0x04#8, 0x00#8, 0x00#8].length ≠ 4 ∧
      [0x04#8, 0x00#8, 0x00#8, 0x00#8, 0x00#8].length ≠ 4 := by decide

theorem witness_WideEncodeArgumentsRefused :
    16 ≤ (EncodeArgs.mk 16 0 0 0 0).cin ∧ 16 ≤ (EncodeArgs.mk 0 16 0 0 0).cable ∧
      256 ≤ (EncodeArgs.mk 0 0 256 0 0).b0 ∧ 256 ≤ (EncodeArgs.mk 0 0 0 256 0).b1 ∧
      256 ≤ (EncodeArgs.mk 0 0 0 0 256).b2 ∧
      ((EncodeArgs.mk 15 15 255 255 255).cin < 16 ∧ (EncodeArgs.mk 15 15 255 255 255).cable < 16 ∧
        (EncodeArgs.mk 15 15 255 255 255).b0 < 256 ∧ (EncodeArgs.mk 15 15 255 255 255).b1 < 256 ∧
        (EncodeArgs.mk 15 15 255 255 255).b2 < 256) := by decide

/-- Room for one byte more, and none. -/
theorem witness_AppendStoresOrFlags :
    (accum (dev 3 1) [0x1B#8, 0x01#8] 0 false).rxLen < (dev 3 1).cfg.cap ∧
      atBounds.cfg.cap ≤ atBounds.rxLen ∧ (dev 0 1).cfg.cap ≤ (dev 0 1).rxLen := by decide

/-- The last payload byte, a position beside it, and the cursor at each of the three distances
from a byte that the next packet carries. -/
theorem witness_LatePayloadWriteIsSent :
    (sends (dev 8 1) 0#4 [0x11#8, 0x12#8] 0).txPayRef = .own ∧
      1 < (sends (dev 8 1) 0#4 [0x11#8, 0x12#8] 0).txLen ∧ 3 ≠ 1 + 1 ∧
      (∀ ci ∈ [(0, 0), (0, 1), (3, 2), (3, 3), (3, 4)],
        let s := sends (dev 8 1) 0#4 [0x11#8, 0x12#8, 0x13#8, 0x14#8, 0x15#8] ci.1
        s.txPayRef = .own ∧ ci.2 < s.txLen ∧ s.txState = .sending ∧ s.txCursor ≤ ci.2 + 1 ∧
          ci.2 + 1 < s.txCursor + 3) := by decide

/-- Idle with capacity 0, 1 and 2; Accumulating with no room, with room for one byte, two
bytes, three bytes. -/
theorem witness_StartOrContinuePacket :
    (∀ cap ∈ [0, 1, 2], (dev cap 1).txState = .idle ∧ (dev cap 1).rxState = .idle) ∧
    (∀ cap ∈ [2, 3, 4, 5], (accum (dev cap 1) [0x1B#8, 0x01#8] 0 false).txState = .idle ∧
      (accum (dev cap 1) [0x1B#8, 0x01#8] 0 false).rxState = .accumulating ∧
      (accum (dev cap 1) [0x1B#8, 0x01#8] 0 false).rxLen ≤
        (accum (dev cap 1) [0x1B#8, 0x01#8] 0 false).cfg.cap) := by decide

/-- As above, the bound being at two bytes. -/
theorem witness_EndThreeBytesPacket :
    ((dev 0 1).txState = .idle ∧ (dev 0 1).rxState = .idle) ∧
    (∀ cap ∈ [2, 3, 4], (accum (dev cap 1) [0x1B#8, 0x01#8] 0 false).txState = .idle ∧
      (accum (dev cap 1) [0x1B#8, 0x01#8] 0 false).rxState = .accumulating ∧
      (accum (dev cap 1) [0x1B#8, 0x01#8] 0 false).rxLen ≤
        (accum (dev cap 1) [0x1B#8, 0x01#8] 0 false).cfg.cap) := by decide

theorem witness_EndTwoBytesPacket :
    ((dev 0 1).txState = .idle ∧ (dev 0 1).rxState = .idle) ∧
    (∀ cap ∈ [2, 3], (accum (dev cap 1) [0x1B#8, 0x01#8] 0 false).txState = .idle ∧
      (accum (dev cap 1) [0x1B#8, 0x01#8] 0 false).rxState = .accumulating ∧
      (accum (dev cap 1) [0x1B#8, 0x01#8] 0 false).rxLen ≤
        (accum (dev cap 1) [0x1B#8, 0x01#8] 0 false).cfg.cap) := by decide

/-- Also of a reassembly that has overflowed. -/
theorem witness_EndOneBytePacket :
    ((dev 0 1).txState = .idle ∧ (dev 0 1).rxState = .idle) ∧
    (∀ o ∈ [false, true], (accum (dev 2 1) [0x1B#8, 0x01#8] 0 o).txState = .idle ∧
      (accum (dev 2 1) [0x1B#8, 0x01#8] 0 o).rxState = .accumulating) := by decide

/-- Idle and Accumulating, and a kind of the list. -/
theorem witness_NonSysExPacket :
    ((dev 8 2).txState = .idle ∧ (dev 8 2).rxState = .idle) ∧
    (atBounds.txState = .idle ∧ atBounds.rxState = .accumulating) ∧
    Instr.nsF 15#4 0xFF#8 0xFF#8 0xFF#8 ∈
      [Instr.ns0 15#4 0xFF#8 0xFF#8 0xFF#8, Instr.nsF 15#4 0xFF#8 0xFF#8 0xFF#8] := by decide

/-- Enabled in Idle and in Accumulating; not in Done, not in TimedOut, not during a send. -/
theorem witness_PacketTakenIffPollEnabled :
    ((dev 8 2).rxState = .idle ∧ (dev 8 2).txState = .idle) ∧
    (atBounds.rxState = .accumulating ∧ atBounds.txState = .idle) ∧
    (∀ s ∈ [result (dev 8 2) [0x1B#8, 0x01#8], { dev 8 2 with rxState := .timedOut },
        sends (dev 8 2) 0#4 [] 0],
      ¬((s.rxState = .idle ∨ s.rxState = .accumulating) ∧ s.txState = .idle)) := by decide

theorem witness_PacketFrame :
    (nextOf (exec (.e3 9#4 0x01#8 0x02#8 0x03#8) atBounds)).isSome = true ∧
      (nextOf (exec (.ns9 0#4 0x90#8 0x3C#8 0x7F#8) (dev 0 1))).isSome = true := by decide

/-- One answer for each of the three outcomes. -/
theorem witness_AtMostOneConditionPerPacket :
    (nextOf (exec (.e1 0#4 0xF7#8 0#8 0#8) atBounds)).isSome = true ∧
      (nextOf (exec (.e2 0#4 0x03#8 0xF7#8 0#8) atBounds)).isSome = true ∧
      (nextOf (exec (.ns0 0#4 0#8 0#8 0#8) atBounds)).isSome = true := by decide

theorem witness_UncheckedFieldsNeverMatter :
    (dev 0 1).rxState = .idle ∧ atBounds.rxState = .accumulating := by decide

/-- A requested poll in a state that takes it and in one that does not, and the block's own
poll in Idle and in Accumulating. -/
theorem witness_StepRunsDecodedPacket :
    let p := pk 0x07#8 0xAA#8 0xBB#8 0xF7#8
    decodeBytes p.bytes = .ok (.e3 0#4 0xAA#8 0xBB#8 0xF7#8) ∧
      (∀ s ∈ [answers atBounds (.packet p), answers echoing (.packet p)],
        s.rxStream = Answer.packet p :: [] ∧ s.requests = Request.rxPoll :: []) ∧
      (∀ s ∈ [{ dev 0 1 with rxStream := [.packet p] }, { atBounds with rxStream := [.packet p] }],
        s.rxStream = Answer.packet p :: [] ∧ s.unasked ∧ s.txState = .idle ∧
          (s.rxState = .idle ∨ s.rxState = .accumulating)) :=
  ⟨rfl, by decide, by decide⟩

/-- Idle; the last poll but one and the last of a budget of 3; the only one of a budget of 1. -/
theorem witness_NotReadyPoll :
    ((dev 8 1).txState = .idle ∧ (dev 8 1).rxState = .idle) ∧
    (let s := { atBounds with rxPolls := 1 };
      s.txState = .idle ∧ s.rxState = .accumulating ∧ s.rxPolls + 1 < s.cfg.timeoutBudget) ∧
    (∀ s ∈ [atBounds, accum (dev 2 1) [0x1B#8, 0x01#8] 0 false],
      s.txState = .idle ∧ s.rxState = .accumulating ∧ s.cfg.timeoutBudget ≤ s.rxPolls + 1) := by
  decide

/-- A request, listed and fed; no request in each state of the block; each kind of answer. -/
theorem witness_StepPerformsRequest :
    let p := pk 0x04#8 0x01#8 0x02#8 0x03#8
    (∀ s ∈ [asks atBounds .txStep, { atBounds with requestsAfter := .repeats [.txStep] }],
      s.feedRequests.requests = Request.txStep :: []) ∧
    (echoing.feedRequests.requests = [] ∧ echoing.txState = .sending) ∧
    (∀ s ∈ [dev 8 1, atBounds], s.feedRequests.requests = [] ∧ s.txState = .idle ∧
      (s.rxState = .idle ∨ s.rxState = .accumulating)) ∧
    (∀ s ∈ [result (dev 8 2) [], { dev 8 2 with rxState := .timedOut }],
      s.feedRequests.requests = [] ∧ s.txState = .idle ∧
        (s.rxState = .done ∨ s.rxState = .timedOut)) ∧
    (∀ s ∈ [answers atBounds (.packet p), { atBounds with answersAfter := .repeats [.packet p] }],
      s.feedAnswers.rxStream = Answer.packet p :: []) ∧
    (answers atBounds .notReady).feedAnswers.rxStream = Answer.notReady :: [] ∧
      atBounds.feedAnswers.rxStream = [] := by decide

/-- Listed; repeated, some and none; free, the first and a later one. -/
theorem witness_EnvironmentFeeds :
    (answers atBounds .notReady).rxStream = Answer.notReady :: [] ∧
      (asks atBounds .txStep).requests = Request.txStep :: [] ∧
      (∀ again ∈ [[], [Answer.notReady]],
        { dev 8 2 with answersAfter := .repeats again }.rxStream = [] ∧
          { dev 8 2 with answersAfter := .repeats again }.answersAfter = .repeats again) ∧
      (∀ again ∈ [[], [Request.rxPoll]],
        { dev 8 2 with requestsAfter := .repeats again }.requests = [] ∧
          { dev 8 2 with requestsAfter := .repeats again }.requestsAfter = .repeats again) ∧
      (∀ n ∈ [0, 7],
        { dev 8 2 with answersAfter := .free n }.rxStream = [] ∧
          { dev 8 2 with answersAfter := .free n }.answersAfter = .free n ∧
          { dev 8 2 with requestsAfter := .free n }.requests = [] ∧
          { dev 8 2 with requestsAfter := .free n }.requestsAfter = .free n) := by decide

theorem witness_ConditionEntryTable :
    (accum (dev 2 1) [0x1B#8, 0x01#8] 0 true).rxOverflow = true := by decide

theorem witness_ReleaseRestoresIdle :
    (∀ s ∈ [result (dev 8 2) [], { dev 8 2 with rxState := .timedOut }],
      (s.rxState = .done ∨ s.rxState = .timedOut) ∧ s.txState = .idle) ∧
    (∀ s ∈ [dev 8 2, atBounds, echoing],
      ¬((s.rxState = .done ∨ s.rxState = .timedOut) ∧ s.txState = .idle)) := by decide

theorem witness_BusyBlockRefusesOthers :
    ((asks atBounds .txStep).feedRequests.requests = .txStep :: [] ∧ Request.txStep ≠ .reset ∧
      (asks atBounds .txStep).rxState = .accumulating ∧ (asks atBounds .txStep).txState = .idle ∧
      Request.txStep ≠ .rxPoll) ∧
    ((asks echoing .dispatch).feedRequests.requests = .dispatch :: [] ∧ (asks echoing .dispatch).txState = .sending ∧
      Request.dispatch ≠ .txStep) ∧
    (∀ i b, Request.txStep ≠ .payWrite i b) ∧ (∀ i b, Request.dispatch ≠ .payWrite i b) :=
  ⟨by decide, by decide, fun _ _ h => (by cases h), fun _ _ h => (by cases h)⟩

/-- A next state from each of the four reassembler states, without a RESET. -/
theorem witness_ReassemblerTransitions :
    ∀ s ∈ [answers (dev 8 2) (.packet (pk 0x04#8 0xF0#8 0x1B#8 0x01#8)), answers atBounds .notReady,
        asks (result (dev 8 2) [0x1B#8, 0x01#8]) .rxRelease,
        asks { dev 8 2 with rxState := .timedOut } .rxRelease],
      (nextOf (step s)).isSome = true ∧ s.feedRequests.requests.head? ≠ some .reset := by decide

/-- A next state in Done, in TimedOut, during a send, and for a request that is no poll. -/
theorem witness_ResultStableUntilNextPoll :
    (∀ s ∈ [asks (result (dev 8 2) [0x1B#8, 0x01#8]) .dispatch,
        asks { dev 8 2 with rxState := .timedOut } .rxRelease, echoing,
        asks (dev 8 2) (.txStart 0#4 2 .own)],
      (nextOf (step s)).isSome = true ∧ s.feedRequests.requests.head? ≠ some .reset) ∧
    (asks (dev 8 2) (.txStart 0#4 2 .own)).feedRequests.requests = .txStart 0#4 2 .own :: [] ∧
      Request.txStart 0#4 2 .own ≠ .rxPoll := by decide

/-- A requested poll, the block's own poll, another request, and the block's own TX_STEP. -/
theorem witness_EachAnswerConsumedOnce :
    ((nextOf (step (answers atBounds .notReady))).isSome = true ∧
      (answers atBounds .notReady).feedRequests.requests = .rxPoll :: []) ∧
    ((nextOf (step atBounds)).isSome = true ∧ atBounds.feedRequests.requests = [] ∧
      atBounds.txState = .idle) ∧
    ((nextOf (step (asks (dev 8 2) (.payWrite 0 0x11#8)))).isSome = true ∧
      (asks (dev 8 2) (.payWrite 0 0x11#8)).feedRequests.requests = .payWrite 0 0x11#8 :: [] ∧
      Request.payWrite 0 0x11#8 ≠ .rxPoll) ∧
    ((nextOf (step echoing)).isSome = true ∧ echoing.feedRequests.requests = [] ∧
      echoing.txState = .sending) := by decide

theorem witness_TracesOnlyGrow :
    (nextOf (step echoing)).isSome = true ∧ echoing.feedRequests.requests.head? ≠ some .reset := by decide

theorem witness_ConfigurationNeverChanges :
    (nextOf (step (asks echoing .reset))).isSome = true := by decide

/-- Enabled in Idle, Done and TimedOut; not during a send, not in Accumulating. -/
theorem witness_StartSendLatches :
    (∀ s ∈ [dev 8 2, result (dev 8 2) [0x1B#8, 0x01#8], { dev 8 2 with rxState := .timedOut }],
      s.txState = .idle ∧ s.rxState ≠ .accumulating) ∧
    (∀ s ∈ [echoing, atBounds], s.txState = .sending ∨ s.rxState = .accumulating) := by decide

/-- Four, three, two and one bytes remain, the cursor at 0, 3, 3 and 3; another request; and
TxIdle. -/
theorem witness_SendStepEmitsPacket :
    (∀ clr ∈ [(0, 2, 4), (3, 4, 3), (3, 3, 2), (3, 2, 1)],
      let s := { echoing with txCursor := clr.1, txLen := clr.2.1 }
      s.txState = .sending ∧ s.txCursor < s.txLen + 2 ∧ s.txLen + 2 - s.txCursor = clr.2.2) ∧
    (Request.dispatch ≠ .txStep ∧ Request.dispatch ≠ .reset) ∧ (dev 8 2).txState = .idle := by
  decide

theorem witness_MessageIsSentWhole :
    echoing.unasked ∧ echoing.txState = .sending ∧ echoing.txCursor = 0 ∧
      0 < (echoing.txLen + 4) / 3 := by decide

theorem witness_ResetValues :
    State.reset = State.reset ∧ ∃ c, State.resetOf ⟨0, 1, 0x1B#8, 0⟩ = State.resetOf c :=
  ⟨rfl, _, rfl⟩

/-- A listed code in a full table; a new code with one slot left; a new code in a full table,
and in a table that can hold nothing. -/
theorem witness_RegistrationLastWinsOrFull :
    let one := { devOf ⟨8, 2, 0x1B#8, 1⟩ with cmdTable := [(1, ⟨10⟩)] }
    let none' := State.resetOf ⟨8, 2, 0x1B#8, 0⟩
    (KMap.read one.cmdTable (0x01#8).toNat).isSome = true ∧
      (State.resetOf ⟨8, 2, 0x1B#8, 1⟩).cmdTable.length <
        (State.resetOf ⟨8, 2, 0x1B#8, 1⟩).cfg.cmdMax ∧
      (KMap.read one.cmdTable (0x02#8).toNat = none ∧ one.cfg.cmdMax ≤ one.cmdTable.length) ∧
      (KMap.read none'.cmdTable (0x01#8).toNat = none ∧
        none'.cfg.cmdMax ≤ none'.cmdTable.length) := by decide

theorem witness_RegisterOnlyDuringInit :
    let r := Request.register 0x01#8 ⟨10⟩
    ((asks (dev 8 2) r).feedRequests.requests = r :: [] ∧ (asks (dev 8 2) r).initPhase = true ∧
      (asks (dev 8 2) r).txState = .idle ∧ (asks (dev 8 2) r).rxState ≠ .accumulating) ∧
    (∀ s ∈ [result (dev 8 2) [], sends (dev 8 2) 0#4 [] 0, { dev 8 2 with rxState := .accumulating }],
      (asks s r).feedRequests.requests = r :: [] ∧ ((asks s r).initPhase = false ∨
        (asks s r).txState = .sending ∨ (asks s r).rxState = .accumulating)) := by decide

theorem witness_CommandTableFixedAfterInit :
    (nextOf (step (asks (result (dev 8 2) [0x1B#8, 0x01#8]) .dispatch))).isSome = true ∧
      (asks (result (dev 8 2) [0x1B#8, 0x01#8]) .dispatch).feedRequests.requests.head? ≠ some .reset ∧
      (asks (result (dev 8 2) [0x1B#8, 0x01#8]) .dispatch).initPhase = false := by decide

/-- Both sides of each equivalence are met: lengths 0, 1 and 2. -/
theorem witness_DispatchIffAddressedAndRegistered :
    route 0x1B#8 [(1, ⟨10⟩)] [0x1B#8, 0x01#8] = .invoked ⟨⟨10⟩, []⟩ ∧
      route 0x1B#8 [(1, ⟨10⟩)] [0x1B#8] = .raised .unaddressedMessage ∧
      route 0x1B#8 [(1, ⟨10⟩)] [] = .raised .unaddressedMessage ∧
      route 0x1B#8 [(1, ⟨10⟩)] [0x1B#8, 0x02#8] = .raised .unknownCommand := by decide

/-- A sound state at its bounds: a full buffer, one poll below the budget. -/
theorem atBounds_sound : Sound atBounds := by constructor <;> decide

/-- A sound state with a discarded message, whose bytes are still in the buffer. -/
theorem discarded_sound : Sound (asks { accum (dev 2 3) [0x1B#8, 0x01#8] 0 true with
    rxState := .done, rxLen := 0 } .dispatch) := by
  constructor <;> decide

theorem witness_DiscardedMessageNeverDispatched :
    let s := asks { accum (dev 2 3) [0x1B#8, 0x01#8] 0 true with rxState := .done, rxLen := 0 }
      .dispatch
    (s.feedRequests.requests = Request.dispatch :: [] ∧ s.rxState = .done ∧ s.txState = .idle ∧ Sound s ∧
      s.rxOverflow = true) ∧
    (∀ s ∈ [atBounds, echoing], (asks s .dispatch).feedRequests.requests = Request.dispatch :: [] ∧
      ((asks s .dispatch).rxState ≠ .done ∨ (asks s .dispatch).txState = .sending)) :=
  ⟨⟨rfl, rfl, rfl, discarded_sound, rfl⟩, by decide⟩

theorem witness_ResetMeetsInvariant : Config.wf ⟨0, 1, 0x1B#8, 0⟩ = true := by decide

/-- A reassembly at its bounds times out, and takes an end packet. -/
theorem witness_StepKeepsInvariant :
    Sound atBounds ∧ (∃ t, step atBounds = .next t ∧ t.rxState = .timedOut) ∧
      (∃ t, exec (.e1 0#4 0xF7#8 0#8 0#8) atBounds = .next t ∧ t.rxState = .done) :=
  ⟨atBounds_sound, ⟨_, rfl, rfl⟩, ⟨_, rfl, rfl⟩⟩

/-- Two states with different bytes above the length; the first sends as much of the buffer
as the result holds; the second refuses a poll. -/
theorem witness_HiddenBufferBytesNeverMatter :
    sameExposed echoing { echoing with rxBuf := cells [0x1B#8, 0x01#8, 0x77#8] } ∧
      echoing.txLen ≤ echoing.rxLen ∧ (∃ t, step echoing = .next t) ∧
      step (asks echoing .rxPoll) = .refused .rxPollNotEnabled :=
  ⟨⟨rfl, by decide⟩, by decide, ⟨_, rfl⟩, rfl⟩

theorem witness_TimeoutAfterExactlyBudget :
    ∀ b ∈ [1, 3], let s := { accum (dev 2 b) [0x1B#8, 0x01#8] 0 false with
        rxStream := List.replicate b Answer.notReady ++ [Answer.notReady] }
      s.unasked ∧ s.rxState = .accumulating ∧ s.txState = .idle ∧ s.rxPolls = 0 ∧
        1 ≤ s.cfg.timeoutBudget ∧
        s.rxStream = List.replicate s.cfg.timeoutBudget Answer.notReady ++ [Answer.notReady] := by decide

theorem witness_EndlessContinuationNeverEnds :
    let ps := [pk 0x04#8 0x01#8 0x02#8 0x03#8, pk 0xF4#8 0xF7#8 0xF7#8 0xF7#8]
    let s := { atBounds with rxStream := ps.map Answer.packet ++ [] }
    s.unasked ∧ s.rxState = .accumulating ∧ s.txState = .idle ∧
      (∀ p ∈ ps, lowNibble p.b0 = 0x4#4) ∧ s.rxStream = ps.map Answer.packet ++ [] := by decide

/-- A sender in the middle of a listed packet and then for ever; a task loop with not-ready
answers and other packets for ever, and with no answer at all. -/
theorem witness_InfiniteRunsAdmitted :
    (let again := [Answer.packet (pk 0x04#8 0x01#8 0x02#8 0x03#8)];
      let s := { atBounds with
        rxStream := [.packet (pk 0xF4#8 0#8 0#8 0#8)], answersAfter := .repeats again }
      s.unasked ∧ s.txState = .idle ∧ s.answersAfter = .repeats again ∧
        s.rxState = .accumulating ∧ again ≠ []) ∧
    (∀ a ∈ [Answer.packet (pk 0xF4#8 0#8 0#8 0#8), .packet (pk 0x04#8 0x01#8 0x02#8 0x03#8)],
      ∃ p, a = .packet p ∧ lowNibble p.b0 = 0x4#4) ∧
    (∀ again ∈ [[], [Answer.notReady, .packet (pk 0x09#8 0x90#8 0x3C#8 0x7F#8)]],
      let s := { dev 8 1 with answersAfter := .repeats again }
      s.unasked ∧ s.txState = .idle ∧ s.answersAfter = .repeats again ∧ s.rxState = .idle) ∧
    (∀ a ∈ [Answer.notReady, .packet (pk 0x09#8 0x90#8 0x3C#8 0x7F#8)],
      ∀ p, a = .packet p → lowNibble p.b0 ≠ 0x4#4) := by
  refine ⟨by decide, ?_, by decide, ?_⟩
  · intro a ha
    simp only [List.mem_cons, List.not_mem_nil, or_false] at ha
    rcases ha with rfl | rfl
    · exact ⟨_, rfl, rfl⟩
    · exact ⟨_, rfl, rfl⟩
  · intro a ha p hp
    simp only [List.mem_cons, List.not_mem_nil, or_false] at ha
    rcases ha with rfl | rfl
    · cases hp
    · cases hp; decide

/-- Three payload bytes with a gap of one less than the budget, into a buffer that holds
them exactly, and into one that is a byte short. -/
theorem witness_LegalSequenceReceived :
    let q : LegalSequence := ⟨pk 0x04#8 0xF0#8 0x11#8 0x12#8, [], pk 0x06#8 0x13#8 0xF7#8 0x00#8⟩
    let gs := [(5, q.first), (1, q.last)]
    ∀ cap ∈ [2, 3], let s := { dev cap 2 with rxStream := deliver gs ++ [Answer.notReady] }
      q.wf = true ∧ s.unasked ∧ s.rxState = .idle ∧ s.txState = .idle ∧
        gs.map Prod.snd = q.packets ∧ (∀ g ∈ gs.tail, g.1 < s.cfg.timeoutBudget) ∧
        s.rxStream = deliver gs ++ [Answer.notReady] ∧ q.payload.length = 3 := by decide

/-- The packets of a two-byte payload, into a buffer that holds it exactly. -/
theorem witness_FragmentThenReassemble :
    (echoing.unasked ∧ echoing.txState = .sending ∧ echoing.txCursor = 0 ∧
      2 ≤ echoing.txLen) ∧
    let gs := [(7, pk 0x04#8 0xF0#8 0x1B#8 0x01#8), (1, pk 0x05#8 0xF7#8 0x00#8 0x00#8)]
    let r := { dev 2 2 with rxStream := deliver gs }
    (core.run ((echoing.txLen + 4) / 3) echoing = .next { echoing with
      txState := .idle, txCursor := 4, txOut := gs.map Prod.snd }) ∧
    r.unasked ∧ r.rxState = .idle ∧ r.txState = .idle ∧ echoing.txLen ≤ r.cfg.cap ∧
      (∀ g ∈ gs.tail, g.1 < r.cfg.timeoutBudget) ∧ r.rxStream = deliver gs ++ [] :=
  ⟨by decide, rfl, by decide⟩

end Sys2Proof.Tests
end

section
/-!
PROOFS. The scope of the model (00_scope.md): the configuration of R6 is written by no step,
and how a step comes to its operation (R9). First the configuration under each shared
operation, then under everything a packet, a request and a step can do.
-/
namespace Sys2Proof.Machine

/-! ## No operation writes the configuration -/

@[simp] theorem State.raise_cfg (s : State) (c : Condition) : (s.raise c).cfg = s.cfg := by
  cases c with
  | bufferOverflow => rw [State.raise_bufferOverflow]
  | timeout | malformedContinuation | unaddressedMessage | unknownCommand
  | registrationOverflow => rfl

@[simp] theorem State.appendAll_cfg (s : State) (bs : List Byte) :
    (s.appendAll bs).cfg = s.cfg := by
  rw [State.appendAll_frame]

@[simp] theorem State.startRx_cfg (s : State) : s.startRx.cfg = s.cfg := rfl

@[simp] theorem State.endClean_cfg (s : State) : s.endClean.cfg = s.cfg := rfl

@[simp] theorem State.release_cfg (s : State) : s.release.cfg = s.cfg := rfl

@[simp] theorem State.beginSend_cfg (s : State) (cable : Nibble) (len : Nat) (ref : PayRef) :
    (s.beginSend cable len ref).cfg = s.cfg := rfl

@[simp] theorem State.sendNext_cfg (s : State) : s.sendNext.cfg = s.cfg := by
  rw [State.sendNext_frame]

@[simp] theorem State.registerCommand_cfg (s : State) (k : Byte) (cb : Callback) :
    (s.registerCommand k cb).cfg = s.cfg := by
  rw [State.registerCommand_frame]

@[simp] theorem State.dispatchResult_cfg (s : State) : s.dispatchResult.cfg = s.cfg := by
  rw [State.dispatchResult_frame]

/-- Whichever way a packet answer is taken, the configuration stays. -/
theorem exec_cfg {i : Instr} {s t : State} (h : exec i s = .next t) : t.cfg = s.cfg := by
  have taken := exec_taken i s
  rw [h] at taken
  cases taken with
  | start | pass | more | clean | malformed => simp

/-- No operation that is performed writes the configuration, RESET among them (R130). -/
theorem Performed.cfg_eq {r : Request} {s t : State} (h : Performed r s t) :
    t.cfg = s.cfg := by
  cases h with
  | packet _ h => simpa using exec_cfg h
  | quiet | count | expire | release | start | send | reset | register | dispatch
  | payWrite => simp

/-- Settles O31: each of the operations a step can come to keeps the configuration, and so
does feeding the requests before it. -/
theorem configurationNeverChanges : Obligations.ConfigurationNeverChanges := by
  intro s t h
  rcases step_cases h with ⟨r, rs, _, hp⟩ | ⟨_, _, hp⟩ | ⟨_, _, _, hp⟩
  · simpa using hp.cfg_eq
  · simpa using hp.cfg_eq
  · simpa using hp.cfg_eq

/-! ## What the block does by itself -/

theorem goOn_sending {s : State} (ht : s.txState = .sending) : goOn s = txStep s := by
  unfold goOn; rw [ht]

theorem goOn_polling {s : State} (ht : s.txState = .idle)
    (hr : s.rxState = .idle ∨ s.rxState = .accumulating) : goOn s = rxPoll s := by
  unfold goOn; rw [ht]
  rcases hr with hr | hr <;> rw [hr]

/-- A held result leaves no operation: the run ends (R143). -/
theorem goOn_held {s : State} (ht : s.txState = .idle)
    (hr : s.rxState = .done ∨ s.rxState = .timedOut) : goOn s = .refused .resultHeld := by
  unfold goOn; rw [ht]
  rcases hr with hr | hr <;> rw [hr]

theorem State.setStream_rxStream_self (s : State) : s.setStream s.rxStream = s := rfl

/-- Settles O21: the next request by `step_fed`; the block's own operation by the three laws
of `goOn`; a poll by the laws of `rxPoll`, one for each answer and one for none. -/
theorem stepPerformsRequest : Obligations.StepPerformsRequest := by
  intro s
  refine ⟨fun r rs hq => step_fed hq, fun hq => ⟨fun ht => ?_, fun ht hr => ?_, fun ht hr => ?_⟩,
    fun p as hs => rxPoll_fed_packet hs, fun as hs => ?_⟩
  · rw [step_goOn hq, goOn_sending (by simpa using ht)]
  · rw [step_goOn hq, goOn_polling (by simpa using ht) (by simpa using hr)]
  · rw [step_goOn hq, goOn_held (by simpa using ht) (by simpa using hr)]
  · rcases hs with hs | ⟨hs, rfl⟩
    · exact rxPoll_fed_notReady hs
    · calc rxPoll s = notReady s.feedAnswers.endInit := rxPoll_unfed hs
        _ = notReady (s.feedAnswers.setStream []).endInit := by
          rw [← hs, State.setStream_rxStream_self]

end Sys2Proof.Machine
end

section
/-!
PROOFS. What every step keeps (10_state.md): how the reassembler's state moves (R12), that the
traces only grow (R22), the reset values (R28), the invariant `Sound` (R14 to R19, R36, R82,
R94, R101), and that the buffer's bytes at or above `rx_len` never show (R13, R35).
-/
namespace Sys2Proof.Machine

/-! ## The operation a step performs -/

/-- A step performs one operation once the requests are fed: the next request, or else the
block's own send or poll. -/
theorem step_performs {s t : State} (h : step s = .next t) :
    ∃ r rs, Performed r (s.feedRequests.setRequests rs) t ∧
      (s.feedRequests.requests.head? = some r ∨ r = .txStep ∨ r = .rxPoll) := by
  rcases step_cases h with ⟨r, rs, hq, hp⟩ | ⟨_, _, hp⟩ | ⟨_, _, _, hp⟩
  · exact ⟨r, rs, hp, .inl (by rw [hq]; rfl)⟩
  · exact ⟨.txStep, s.feedRequests.requests, hp, .inr (.inl rfl)⟩
  · exact ⟨.rxPoll, s.feedRequests.requests, hp, .inr (.inr rfl)⟩

/-- Where the next request is no RESET, neither is the operation performed. -/
theorem ne_reset_of_performs {s : State} {r : Request}
    (hq : s.feedRequests.requests.head? = some r ∨ r = .txStep ∨ r = .rxPoll)
    (h : s.feedRequests.requests.head? ≠ some .reset) : r ≠ .reset := by
  rintro rfl
  simp [h] at hq

/-! ## What an append of several bytes leaves, and where it leads -/

@[simp] theorem State.appendAll_rxState (s : State) (bs : List Byte) :
    (s.appendAll bs).rxState = s.rxState := by rw [State.appendAll_frame]

@[simp] theorem State.appendAll_txOut (s : State) (bs : List Byte) :
    (s.appendAll bs).txOut = s.txOut := by rw [State.appendAll_frame]

@[simp] theorem State.appendAll_evtOut (s : State) (bs : List Byte) :
    (s.appendAll bs).evtOut = s.evtOut := by rw [State.appendAll_frame]

theorem State.appendAll_rxLen {s : State} (bs : List Byte) (h : s.rxLen ≤ s.cfg.cap) :
    (s.appendAll bs).rxLen = min (s.rxLen + bs.length) s.cfg.cap := by
  rw [(State.appendAll_spec bs s h).eq]

theorem State.appendAll_rxOverflow {s : State} (bs : List Byte) (h : s.rxLen ≤ s.cfg.cap) :
    (s.appendAll bs).rxOverflow =
      (s.rxOverflow || decide (s.cfg.cap < s.rxLen + bs.length)) := by
  rw [(State.appendAll_spec bs s h).eq]

/-! ## The transitions of the reassembler (R12) -/

/-- How an operation other than RESET may move `rx_state`: not at all, or along one of the
transitions of R12. -/
inductive RxMove (r : Request) : RxState → RxState → Prop where
  | stay (x : RxState) : RxMove r x x
  | start : RxMove r .idle .accumulating
  | finish : RxMove r .accumulating .done
  | expire : RxMove r .accumulating .timedOut
  | release {x : RxState} (hr : r = .rxRelease) (hx : x = .done ∨ x = .timedOut) :
      RxMove r x .idle

/-- A packet answer starts a reassembly, ends one in Done, or leaves the state. -/
theorem exec_rxMove {i : Instr} {s t : State} (h : exec i s = .next t) (r : Request) :
    RxMove r s.rxState t.rxState := by
  have taken := exec_taken i s
  rw [h] at taken
  cases taken with
  | start _ _ _ _ _ hr => rw [hr]; exact .start
  | pass => exact .stay _
  | more => simpa using RxMove.stay s.rxState
  | clean _ hr => rw [hr]; exact .finish
  | malformed _ _ hr => rw [hr]; exact .finish

theorem Performed.rxMove {r : Request} {s t : State} (h : Performed r s t) (hr : r ≠ .reset) :
    RxMove r s.rxState t.rxState := by
  cases h with
  | packet _ h => simpa using exec_rxMove h .rxPoll
  | quiet | count | start | payWrite => exact .stay _
  | expire hr => rw [hr]; exact .expire
  | release hr => exact .release rfl hr
  | send => rw [State.sendNext_frame]; exact .stay _
  | reset => exact absurd rfl hr
  | register => rw [State.registerCommand_frame]; exact .stay _
  | dispatch => rw [State.dispatchResult_frame]; exact .stay _

/-- Settles O27: the four clauses are read off the one move the step's operation makes. -/
theorem reassemblerTransitions : Obligations.ReassemblerTransitions := by
  intro s t h hreset
  obtain ⟨r, rs, hp, hq⟩ := step_performs h
  have move : RxMove r s.rxState t.rxState := hp.rxMove (ne_reset_of_performs hq hreset)
  have released : r = .rxRelease → s.feedRequests.requests.head? = some .rxRelease := by
    rintro rfl
    simpa using hq
  generalize s.rxState = x at move ⊢
  generalize t.rxState = y at move ⊢
  cases move with
  | stay => cases x <;> simp
  | start | finish | expire => simp
  | release hr hx => rcases hx with rfl | rfl <;> simp [released hr]

/-! ## The traces only grow (R22) -/

/-- The three output traces of `s` are prefixes of those of `t`. -/
def TracesExtend (s t : State) : Prop :=
  s.txOut <+: t.txOut ∧ s.evtOut <+: t.evtOut ∧ s.diagOut <+: t.diagOut

theorem TracesExtend.of_eq {s t : State} (htx : t.txOut = s.txOut) (hevt : t.evtOut = s.evtOut)
    (hdiag : t.diagOut = s.diagOut) : TracesExtend s t := by
  unfold TracesExtend
  rw [htx, hevt, hdiag]
  exact ⟨List.prefix_rfl, List.prefix_rfl, List.prefix_rfl⟩

/-- An append of several bytes adds at most a diagnostic. -/
theorem TracesExtend.appendAll (s : State) (bs : List Byte) :
    TracesExtend s (s.appendAll bs) := by
  refine ⟨by simp, by simp, ?_⟩
  rcases State.appendAll_diag bs s with ⟨h, _⟩ | ⟨h, _⟩
  · rw [h]
  · rw [h]; exact List.prefix_append _ _

theorem TracesExtend.emitDiag (s : State) (d : Diag) : TracesExtend s (s.emitDiag d) :=
  ⟨List.prefix_rfl, List.prefix_rfl, List.prefix_append _ _⟩

theorem TracesExtend.emitEvt (s : State) (ev : Event) : TracesExtend s (s.emitEvt ev) :=
  ⟨List.prefix_rfl, List.prefix_append _ _, List.prefix_rfl⟩

/-- TX_STEP adds one packet. -/
theorem TracesExtend.sendNext (s : State) : TracesExtend s s.sendNext := by
  have one : s.sendNext.txOut = s.txOut ++ [s.nextTxPacket] := by
    unfold State.sendNext; split <;> rfl
  rw [State.sendNext_frame, one]
  exact ⟨List.prefix_append _ _, List.prefix_rfl, List.prefix_rfl⟩

theorem exec_tracesExtend {i : Instr} {s t : State} (h : exec i s = .next t) :
    TracesExtend s t := by
  have taken := exec_taken i s
  rw [h] at taken
  cases taken with
  | start _ d1 d2 => exact TracesExtend.appendAll s.startRx _
  | pass => exact .emitEvt s _
  | more => exact TracesExtend.appendAll (s.setRxPolls 0) _
  | clean => exact TracesExtend.appendAll (s.setRxPolls 0) _
  | malformed => exact TracesExtend.emitDiag s .malformed

theorem Performed.tracesExtend {r : Request} {s t : State} (h : Performed r s t)
    (hr : r ≠ .reset) : TracesExtend s t := by
  cases h with
  | packet _ h => simpa [TracesExtend] using exec_tracesExtend h
  | quiet | count => exact .of_eq (by simp) (by simp) (by simp)
  | release | start | payWrite => exact .of_eq rfl rfl rfl
  | expire =>
    rw [State.raise_timeout]
    exact ⟨List.prefix_rfl, List.prefix_rfl, List.prefix_append _ _⟩
  | send => exact .sendNext s
  | reset => exact absurd rfl hr
  | register => rw [State.registerCommand_frame]; exact .of_eq rfl rfl rfl
  | dispatch => rw [State.dispatchResult_frame]; exact .of_eq rfl rfl rfl

/-- Settles O30: feeding the requests leaves the traces, and so does every operation but for
what it appends. -/
theorem tracesOnlyGrow : Obligations.TracesOnlyGrow := by
  intro s t h hreset
  obtain ⟨r, rs, hp, hq⟩ := step_performs h
  exact hp.tracesExtend (ne_reset_of_performs hq hreset)

/-! ## The reset state (R28) -/

/-- Settles O35: `State.reset` is a reset state too, and each of those is the record R28 gives,
whose buffer lists no cell. -/
theorem resetValues : Obligations.ResetValues := by
  intro s hs
  obtain ⟨c, rfl⟩ : ∃ c, s = State.resetOf c := by
    rcases hs with rfl | hs
    · exact ⟨Config.thisDevice, rfl⟩
    · exact hs
  exact ⟨rfl, fun _ => rfl, rfl, rfl, rfl, rfl, rfl, rfl, rfl, rfl, rfl, rfl, rfl, rfl⟩

/-- The reset state of a legal configuration: everything is empty, zero or idle. -/
theorem Sound.resetOf {c : Config} (h : c.wf = true) : Sound (State.resetOf c) where
  budget := h
  lenLeCap := Nat.zero_le _
  pollsLt := of_decide_eq_true h
  pollsZero _ := rfl
  malformedClear _ := rfl
  timedOutEmpty _ := rfl
  lenMeansClean _ _ := ⟨rfl, rfl⟩
  overflowFull hr := nomatch hr
  lenTwo _ := ⟨nofun, nofun⟩
  bufWf := List.Pairwise.nil
  bufInside := nofun
  bufWritten := nofun
  payWf := List.Pairwise.nil
  cursorLe := Nat.zero_le _
  cursorSending := nofun
  exclusive := nofun
  tableWf := List.Pairwise.nil
  tableLe := Nat.zero_le _

/-- Settles O42: all that is known of the device behind `State.reset` is that its budget is at
least 1, and that is what makes a configuration legal. -/
theorem resetMeetsInvariant : Obligations.ResetMeetsInvariant :=
  ⟨Sound.resetOf (decide_eq_true (Nat.le_add_left 1 _)), fun _ h => Sound.resetOf h⟩

/-! ## The invariant is kept (R14 to R19, R36, R82, R94, R101)

One rule per operation. Each names only the clauses of `Sound` that the operation touches; the
others are the same statements about unchanged fields. -/

/-- R6: the budget is at least 1, so a count of 0 is below it. -/
theorem Sound.budget_pos {s : State} (h : Sound s) : 0 < s.cfg.timeoutBudget :=
  of_decide_eq_true h.budget

/-- The transport's answer is taken and initialisation ends: nothing the invariant speaks of. -/
theorem Sound.takeAnswer {s : State} (h : Sound s) (as : List Answer) :
    Sound (s.feedAnswers.setStream as).endInit := by
  unfold State.feedAnswers State.setStream State.endInit
  exact { h with }

theorem Sound.takeRequest {s : State} (h : Sound s) (rs : List Request) :
    Sound (s.feedRequests.setRequests rs) := { h with }

theorem Sound.emitEvt {s : State} (h : Sound s) (ev : Event) : Sound (s.emitEvt ev) := { h with }

/-- R15: the count may be set to anything below the budget, in Accumulating. -/
theorem Sound.setRxPolls {s : State} (h : Sound s) (hr : s.rxState = .accumulating) {n : Nat}
    (hn : n < s.cfg.timeoutBudget) : Sound (s.setRxPolls n) :=
  { h with
    pollsLt := hn
    pollsZero := absurd hr }

/-- R79: from a result state to Idle. -/
theorem Sound.release {s : State} (h : Sound s) (hr : s.rxState = .done ∨ s.rxState = .timedOut) :
    Sound s.release :=
  have notAcc : s.rxState ≠ .accumulating := by rcases hr with hr | hr <;> simp [hr]
  { h with
    pollsZero := fun _ => h.pollsZero notAcc
    malformedClear := nofun
    timedOutEmpty := nofun
    lenMeansClean := fun _ => h.lenMeansClean notAcc
    overflowFull := nofun
    lenTwo := fun _ => ⟨nofun, nofun⟩
    exclusive := nofun }

/-- R111: a timeout empties the result; the reassembly's `rx_malformed` is 0 already. -/
theorem Sound.timeout {s : State} (h : Sound s) (hr : s.rxState = .accumulating) :
    Sound (s.raise .timeout) :=
  { h with
    lenLeCap := Nat.zero_le _
    pollsLt := h.budget_pos
    pollsZero := fun _ => rfl
    malformedClear := fun _ => h.malformedClear (.inl hr)
    timedOutEmpty := fun _ => rfl
    lenMeansClean := nofun
    overflowFull := nofun
    lenTwo := fun _ => ⟨nofun, nofun⟩
    bufWritten := nofun
    exclusive := nofun }

/-- R78: the message is discarded, `rx_malformed` being whatever the end says. -/
theorem Sound.discard {s : State} (h : Sound s) (m : Bool) :
    Sound { s with rxMalformed := m, rxLen := 0, rxPolls := 0, rxState := .done } :=
  { h with
    lenLeCap := Nat.zero_le _
    pollsLt := h.budget_pos
    pollsZero := fun _ => rfl
    malformedClear := nofun
    timedOutEmpty := nofun
    lenMeansClean := nofun
    overflowFull := nofun
    lenTwo := fun _ => ⟨nofun, fun _ => .inl rfl⟩
    bufWritten := nofun
    exclusive := nofun }

/-- R112: a malformed continuation discards the message; its diagnostic is no matter of the
invariant. -/
theorem Sound.malformedContinuation {s : State} (h : Sound s) :
    Sound (s.raise .malformedContinuation) := { h.discard true with }

/-- R78: a clean end discards the message after an overflow, and else keeps it, which by then
holds its two bytes (R82(e)). -/
theorem Sound.endClean {s : State} (h : Sound s) (hr : s.rxState = .accumulating) :
    Sound s.endClean := by
  rw [State.endClean_eq]
  by_cases hov : s.rxOverflow = true
  · rw [if_pos hov]
    exact h.discard false
  · rw [if_neg hov]
    exact
      { h with
        pollsLt := h.budget_pos
        pollsZero := fun _ => rfl
        malformedClear := nofun
        timedOutEmpty := nofun
        lenMeansClean := fun _ _ => ⟨eq_false_of_ne_true hov, rfl⟩
        overflowFull := nofun
        lenTwo := fun hc => ⟨nofun, fun _ => .inr ((h.lenTwo hc).1 hr)⟩
        exclusive := nofun }

/-- The clauses of `Sound` about the buffer's cells and their number. -/
structure BufferSound (s : State) : Prop where
  lenLeCap : s.rxLen ≤ s.cfg.cap
  bufWf : Memory.wf s.rxBuf
  bufInside : ∀ c ∈ s.rxBuf, c.1 < s.cfg.cap
  bufWritten : ∀ i, i < s.rxLen → (KMap.read s.rxBuf i).isSome = true

theorem Sound.buffer {s : State} (h : Sound s) : BufferSound s := { h with }

/-- R39: an append of several bytes writes within the capacity, and each byte it counts. -/
theorem BufferSound.appendAll {s : State} (h : BufferSound s) (bs : List Byte) :
    BufferSound (s.appendAll bs) := by
  obtain ⟨_, read, wf, inside⟩ := State.appendAll_spec bs s h.lenLeCap
  have len := State.appendAll_rxLen bs h.lenLeCap
  refine ⟨by rw [len, State.appendAll_cfg]; exact Nat.min_le_right _ _, wf h.bufWf,
    by simpa using inside h.bufInside, fun i hi => ?_⟩
  rw [len, Nat.lt_min] at hi
  rw [read]
  by_cases hs : s.rxLen ≤ i
  · rw [if_pos ⟨hs, hi⟩, List.getElem?_eq_getElem (by omega)]
    rfl
  · rw [if_neg fun hn => hs hn.1]
    exact h.bufWritten i (Nat.lt_of_not_le hs)

/-- R39: the flag goes up only on a full buffer. -/
theorem State.appendAll_overflowFull {s : State} (bs : List Byte) (hl : s.rxLen ≤ s.cfg.cap)
    (hf : s.rxOverflow = true → s.rxLen = s.cfg.cap) :
    (s.appendAll bs).rxOverflow = true → (s.appendAll bs).rxLen = s.cfg.cap := by
  rw [State.appendAll_rxOverflow bs hl, State.appendAll_rxLen bs hl, Bool.or_eq_true,
    decide_eq_true_iff]
  rintro (hov | hov)
  · have full := hf hov
    omega
  · omega

/-- R72: a reassembly goes on. -/
theorem Sound.appendAll {s : State} (h : Sound s) (hr : s.rxState = .accumulating)
    (bs : List Byte) : Sound (s.appendAll bs) := by
  have buffer := h.buffer.appendAll bs
  have full := State.appendAll_overflowFull bs h.lenLeCap (h.overflowFull hr)
  have long (hc : 2 ≤ s.cfg.cap) : 2 ≤ (s.appendAll bs).rxLen := by
    have two := (h.lenTwo hc).1 hr
    rw [State.appendAll_rxLen bs h.lenLeCap]
    omega
  rw [State.appendAll_frame] at buffer ⊢
  exact
    { buffer, h with
      timedOutEmpty := fun hr' => nomatch hr.symm.trans hr'
      lenMeansClean := absurd hr
      overflowFull := fun _ => full
      lenTwo := fun hc => ⟨fun _ => long hc, fun hr' => nomatch hr.symm.trans hr'⟩ }

/-- R72: a reassembly starts, with its two bytes where the buffer has room for two. -/
theorem Sound.start {s : State} (h : Sound s) (ht : s.txState = .idle) (d1 d2 : Byte) :
    Sound ((s.startRx.appendAll [d1, d2]).setRxState .accumulating) := by
  have empty : BufferSound s.startRx :=
    { h.buffer with
      lenLeCap := Nat.zero_le _
      bufWritten := nofun }
  have buffer := empty.appendAll [d1, d2]
  have full := State.appendAll_overflowFull [d1, d2] empty.lenLeCap nofun
  have long (hc : 2 ≤ s.cfg.cap) : 2 ≤ (s.startRx.appendAll [d1, d2]).rxLen := by
    rw [State.appendAll_rxLen _ empty.lenLeCap]
    exact Nat.le_min.mpr ⟨Nat.le_refl 2, hc⟩
  rw [State.appendAll_frame] at buffer ⊢
  exact
    { buffer, h with
      pollsLt := h.budget_pos
      pollsZero := fun _ => rfl
      malformedClear := fun _ => rfl
      timedOutEmpty := nofun
      lenMeansClean := absurd rfl
      overflowFull := fun _ => full
      lenTwo := fun hc => ⟨fun _ => long hc, nofun⟩
      exclusive := fun ht' => nomatch ht.symm.trans ht' }

/-- A packet answer keeps the invariant. -/
theorem Sound.exec {i : Instr} {s t : State} (h : Sound s) (hx : exec i s = .next t) :
    Sound t := by
  have taken := exec_taken i s
  rw [hx] at taken
  have counted (hr : s.rxState = .accumulating) : Sound (s.setRxPolls 0) :=
    h.setRxPolls hr h.budget_pos
  cases taken with
  | start _ d0 d1 d2 _ _ ht => exact h.start ht d1 d2
  | pass => exact h.emitEvt i.event
  | more _ hr => exact (counted hr).appendAll hr _
  | clean _ hr => exact ((counted hr).appendAll hr _).endClean (by simpa using hr)
  | malformed _ _ hr => exact (counted hr).malformedContinuation

/-- R90: a send starts at the cursor's first position, outside a reassembly. -/
theorem Sound.beginSend {s : State} (h : Sound s) (hr : s.rxState ≠ .accumulating)
    (cable : Nibble) (len : Nat) (ref : PayRef) : Sound (s.beginSend cable len ref) :=
  { h with
    cursorLe := Nat.zero_le _
    cursorSending := fun _ => ⟨rfl, Nat.succ_pos _⟩
    exclusive := fun _ => hr }

/-- R92, R94: after an SC the cursor is three further and still inside, after an end packet it
is at the end. -/
theorem Sound.sendNext {s : State} (h : Sound s) (ht : s.txState = .sending) :
    Sound s.sendNext := by
  obtain ⟨third, _⟩ := h.cursorSending ht
  unfold State.sendNext
  split
  next more =>
    have inside : s.txCursor + 3 < s.txLen + 2 := by
      unfold State.txRemaining at more
      omega
    exact
      { h with
        cursorLe := Nat.le_of_lt inside
        cursorSending := fun _ => ⟨(Nat.add_mod_right _ 3).trans third, inside⟩
        exclusive := fun _ => h.exclusive ht }
  next =>
    exact
      { h with
        cursorLe := Nat.le_refl _
        cursorSending := nofun
        exclusive := nofun }

/-- R102: a listed code takes no new slot, and a new one only a free slot. -/
theorem Sound.registerCommand {s : State} (h : Sound s) (k : Byte) (cb : Callback) :
    Sound (s.registerCommand k cb) := by
  unfold State.registerCommand
  split
  next room =>
    have fits : (KMap.write s.cmdTable k.toNat cb).length ≤ s.cfg.cmdMax := by
      have old := h.tableLe
      rw [KMap.length_write _ _ _ h.tableWf]
      split
      next => exact old
      next new => simpa [new] using room
    exact
      { h with
        tableWf := KMap.wf_write _ _ _ h.tableWf
        tableLe := fits }
  next => exact { h with }

theorem Sound.dispatchResult {s : State} (h : Sound s) : Sound s.dispatchResult := by
  rw [State.dispatchResult_frame]
  exact { h with }

theorem Sound.writePay {s : State} (h : Sound s) (i : Nat) (b : Byte) : Sound (s.writePay i b) :=
  { h with payWf := KMap.wf_write _ _ _ h.payWf }

/-- R130: RESET gives the reset state of the same configuration, the requester's memory kept. -/
theorem Sound.resetBlock {s : State} (h : Sound s) : Sound s.resetBlock :=
  { Sound.resetOf h.budget with payWf := h.payWf }

theorem Performed.sound {r : Request} {s t : State} (hp : Performed r s t) (h : Sound s) :
    Sound t := by
  cases hp with
  | packet _ hx => exact (h.takeAnswer _).exec hx
  | quiet => exact h.takeAnswer _
  | count hr _ hn => exact (h.takeAnswer _).setRxPolls hr hn
  | expire hr => exact (h.takeAnswer _).timeout hr
  | release hr => exact h.release hr
  | start _ hr => exact h.beginSend hr _ _ _
  | send ht => exact h.sendNext ht
  | reset => exact h.resetBlock
  | register => exact h.registerCommand _ _
  | dispatch => exact h.dispatchResult
  | payWrite => exact h.writePay _ _

/-- Settles O43: the request is taken, and the operation performed keeps the invariant. -/
theorem stepKeepsInvariant : Obligations.StepKeepsInvariant := by
  intro s t h hstep
  obtain ⟨_, rs, hp, _⟩ := step_performs hstep
  exact hp.sound (h.takeRequest rs)

/-! ## Hidden bytes of the buffer never matter (R13, R35)

A commuting square per operation: from two states that differ in hidden bytes alone, it leads
to two such states, or is refused from both for one reason. -/

/-- The state with another content of `rx_buf`. -/
def State.withBuf (s : State) (m : Memory) : State := { s with rxBuf := m }

/-- `sameExposed` by the other state's buffer. -/
theorem sameExposed_iff {s t : State} :
    sameExposed s t ↔
      ∃ m, t = s.withBuf m ∧ ∀ i, i < s.rxLen → KMap.read m i = KMap.read s.rxBuf i := by
  constructor
  · rintro ⟨ht, hm⟩
    exact ⟨t.rxBuf, ht, hm⟩
  · rintro ⟨m, rfl, hm⟩
    exact ⟨rfl, hm⟩

theorem sameExposed.refl (s : State) : sameExposed s s := ⟨rfl, fun _ _ => rfl⟩

/-- An update that neither reads nor writes the buffer, and raises no length, keeps the hidden
bytes hidden. -/
theorem sameExposed.update {s t : State} (h : sameExposed s t) (f : State → State)
    (commutes : ∀ m, f (s.withBuf m) = (f s).withBuf m) (buf : (f s).rxBuf = s.rxBuf)
    (len : (f s).rxLen ≤ s.rxLen) : sameExposed (f s) (f t) := by
  obtain ⟨m, rfl, hm⟩ := sameExposed_iff.mp h
  refine sameExposed_iff.mpr ⟨m, commutes m, fun i hi => ?_⟩
  rw [buf]
  exact hm i (Nat.lt_of_lt_of_le hi len)

theorem sameExposed.rxState {s t : State} (h : sameExposed s t) : t.rxState = s.rxState := by
  rw [h.1]

theorem sameExposed.txState {s t : State} (h : sameExposed s t) : t.txState = s.txState := by
  rw [h.1]

/-- Two outcomes that nobody may tell apart: next states that differ in hidden bytes alone, or
one refusal. -/
inductive SameOutcome :
    Host.Outcome State Fault Refusal → Host.Outcome State Fault Refusal → Prop where
  | next {s t : State} (h : sameExposed s t) : SameOutcome (.next s) (.next t)
  | refused (why : Refusal) : SameOutcome (.refused why) (.refused why)

/-- An operation enabled in both states or in neither (R55). -/
theorem SameOutcome.guarded {e e' : Bool} {why : Refusal} {s t : State} (he : e' = e)
    (h : e = true → sameExposed s t) :
    SameOutcome (State.guarded e why s) (State.guarded e' why t) := by
  subst he
  cases e' with
  | true => exact .next (h rfl)
  | false => exact .refused why

/-! ### The bytes read -/

theorem sameExposed.rxByte {s t : State} (h : sameExposed s t) {i : Nat} (hi : i < s.rxLen) :
    t.rxByte i = s.rxByte i := by
  obtain ⟨m, rfl, hm⟩ := sameExposed_iff.mp h
  unfold State.rxByte
  rw [show (s.withBuf m).rxBuf = m from rfl, hm i hi]
  rfl

/-- R26: the payload is what lies below `rx_len`. -/
theorem sameExposed.rxPayload {s t : State} (h : sameExposed s t) :
    t.rxPayload = s.rxPayload := by
  have len : t.rxLen = s.rxLen := by rw [h.1]
  unfold State.rxPayload
  rw [len]
  exact List.map_congr_left fun i hi => h.rxByte (List.mem_range.mp hi)

/-- A send of the buffer that is no longer than the result reads exposed bytes alone. -/
theorem sameExposed.seqByte {s t : State} (h : sameExposed s t)
    (hp : s.txPayRef = .rxBuf → s.txLen ≤ s.rxLen) (i : Nat) : t.seqByte i = s.seqByte i := by
  have pay (hi : i ≠ 0) (hl : i ≤ s.txLen) : t.payByte (i - 1) = s.payByte (i - 1) := by
    have ref : t.txPayRef = s.txPayRef := by rw [h.1]
    have mem : t.txPay = s.txPay := by rw [h.1]
    unfold State.payByte
    rw [ref, mem]
    cases hr : s.txPayRef with
    | own => rfl
    | rxBuf =>
      have fits := hp hr
      exact h.rxByte (by omega)
  have len : t.txLen = s.txLen := by rw [h.1]
  unfold State.seqByte
  rw [len]
  by_cases hi : i = 0
  · rw [if_pos hi, if_pos hi]
  · rw [if_neg hi, if_neg hi]
    exact ite_congr rfl (pay hi) fun _ => rfl

theorem sameExposed.nextTxPacket {s t : State} (h : sameExposed s t)
    (hp : s.txPayRef = .rxBuf → s.txLen ≤ s.rxLen) : t.nextTxPacket = s.nextTxPacket := by
  have rest : t.txRemaining = s.txRemaining := by rw [h.1]; rfl
  have cable : t.txCable = s.txCable := by rw [h.1]
  have cursor : t.txCursor = s.txCursor := by rw [h.1]
  unfold State.nextTxPacket
  rw [rest, cable, cursor]
  simp only [h.seqByte hp]

/-! ### The reassembler's operations -/

/-- R39: the byte stored is the same, and so is the index it is stored at. -/
theorem sameExposed.append {s t : State} (h : sameExposed s t) (b : Byte) :
    sameExposed (s.append b) (t.append b) := by
  obtain ⟨m, rfl, hm⟩ := sameExposed_iff.mp h
  by_cases hr : s.rxLen < s.cfg.cap
  · rw [State.append_room s b hr, State.append_room (s.withBuf m) b hr]
    refine sameExposed_iff.mpr ⟨KMap.write m s.rxLen b, rfl, fun i hi => ?_⟩
    rw [State.storeRx_rxBuf, KMap.read_write, KMap.read_write]
    exact ite_congr rfl (fun _ => rfl) fun hne => hm i (by rw [State.storeRx_rxLen] at hi; omega)
  · rw [State.append_full s b (Nat.le_of_not_lt hr),
      State.append_full (s.withBuf m) b (Nat.le_of_not_lt hr), State.raise_bufferOverflow,
      State.raise_bufferOverflow]
    exact sameExposed_iff.mpr ⟨m, rfl, hm⟩

theorem sameExposed.appendAll {s t : State} (h : sameExposed s t) (bs : List Byte) :
    sameExposed (s.appendAll bs) (t.appendAll bs) := by
  induction bs generalizing s t with
  | nil => exact h
  | cons b bs ih => exact ih (h.append b)

theorem sameExposed.startRx {s t : State} (h : sameExposed s t) :
    sameExposed s.startRx t.startRx :=
  h.update State.startRx (fun _ => rfl) rfl (Nat.zero_le _)

theorem sameExposed.setRxState {s t : State} (h : sameExposed s t) (v : RxState) :
    sameExposed (s.setRxState v) (t.setRxState v) :=
  h.update (·.setRxState v) (fun _ => rfl) rfl (Nat.le_refl _)

theorem sameExposed.setRxPolls {s t : State} (h : sameExposed s t) (n : Nat) :
    sameExposed (s.setRxPolls n) (t.setRxPolls n) :=
  h.update (·.setRxPolls n) (fun _ => rfl) rfl (Nat.le_refl _)

theorem sameExposed.emitEvt {s t : State} (h : sameExposed s t) (ev : Event) :
    sameExposed (s.emitEvt ev) (t.emitEvt ev) :=
  h.update (·.emitEvt ev) (fun _ => rfl) rfl (Nat.le_refl _)

theorem sameExposed.timeout {s t : State} (h : sameExposed s t) :
    sameExposed (s.raise .timeout) (t.raise .timeout) :=
  h.update (·.raise .timeout) (fun _ => rfl) rfl (Nat.zero_le _)

theorem sameExposed.malformedContinuation {s t : State} (h : sameExposed s t) :
    sameExposed (s.raise .malformedContinuation) (t.raise .malformedContinuation) :=
  h.update (·.raise .malformedContinuation) (fun _ => rfl) rfl (Nat.zero_le _)

theorem sameExposed.endClean {s t : State} (h : sameExposed s t) :
    sameExposed s.endClean t.endClean := by
  refine h.update State.endClean (fun _ => rfl) rfl ?_
  rw [State.endClean_eq]
  show (if s.rxOverflow then 0 else s.rxLen) ≤ s.rxLen
  split
  · exact Nat.zero_le _
  · exact Nat.le_refl _

/-- The transport's answers do not depend on the buffer. -/
theorem sameExposed.takeAnswer {s t : State} (h : sameExposed s t) (as : List Answer) :
    sameExposed (s.feedAnswers.setStream as).endInit (t.feedAnswers.setStream as).endInit :=
  h.update (fun s => (s.feedAnswers.setStream as).endInit) (fun _ => rfl) rfl (Nat.le_refl _)

/-- A packet that continues a message is taken in Accumulating (R72). -/
theorem exec_continues {i : Instr} {s : State} (hi : continues i = true)
    (hr : s.rxState = .accumulating) (ht : s.txState = .idle) :
    exec i s = .next ((s.setRxPolls 0).appendAll (appendedBytes i)) := by
  cases i with
  | sc c d0 d1 d2 => exact exec_more c d0 d1 d2 hr ht
  | _ => cases hi

/-- Where a poll is not enabled no packet is taken (R70). -/
theorem exec_refused {i : Instr} {s : State} (h : s.rxPollEnabled = false) :
    exec i s = .refused .rxPollNotEnabled := by
  have taken := exec_taken i s
  generalize exec i s = x at taken ⊢
  cases taken with
  | start _ _ _ _ _ hr ht | pass _ hr ht | more _ hr ht | clean _ hr ht | malformed _ _ hr ht =>
    simp [State.rxPollEnabled, hr, ht] at h
  | refused => rfl

theorem sameExposed.exec {s t : State} (h : sameExposed s t) (i : Instr) :
    SameOutcome (exec i s) (exec i t) := by
  have taken := exec_taken i s
  have rx := h.rxState
  have tx := h.txState
  generalize Machine.exec i s = x at taken ⊢
  cases taken with
  | start c d0 d1 d2 hi hr ht =>
    subst hi
    rw [exec_start c d0 d1 d2 (rx.trans hr) (tx.trans ht)]
    exact .next ((h.startRx.appendAll _).setRxState _)
  | pass hi hr ht =>
    rw [exec_idle hi (rx.trans hr) (tx.trans ht)]
    exact .next (h.emitEvt _)
  | more hi hr ht =>
    rw [exec_continues hi (rx.trans hr) (tx.trans ht)]
    exact .next ((h.setRxPolls 0).appendAll _)
  | clean hi hr ht =>
    rw [exec_clean hi (rx.trans hr) (tx.trans ht)]
    exact .next ((h.setRxPolls 0).appendAll _).endClean
  | malformed hc he hr ht =>
    rw [exec_malformed hc he (rx.trans hr) (tx.trans ht)]
    exact .next (h.setRxPolls 0).malformedContinuation
  | refused hn =>
    rw [exec_refused (by rw [State.rxPollEnabled, rx, tx]; exact hn)]
    exact .refused _

theorem sameExposed.notReady {s t : State} (h : sameExposed s t) :
    SameOutcome (notReady s) (notReady t) := by
  have polls : t.rxPolls = s.rxPolls := by rw [h.1]
  have cfg : t.cfg = s.cfg := by rw [h.1]
  unfold Machine.notReady
  rw [h.rxState, h.txState, polls, cfg]
  cases s.txState with
  | sending => cases s.rxState <;> exact .refused _
  | idle =>
    cases s.rxState with
    | idle => exact .next h
    | accumulating =>
      by_cases hb : s.cfg.timeoutBudget ≤ s.rxPolls + 1
      · simp only [if_pos hb]
        exact .next h.timeout
      · simp only [if_neg hb]
        exact .next (h.setRxPolls _)
    | done | timedOut => exact .refused _

theorem sameExposed.rxPoll {s t : State} (h : sameExposed s t) :
    SameOutcome (rxPoll s) (rxPoll t) := by
  have stream : t.feedAnswers.rxStream = s.feedAnswers.rxStream := by rw [h.1]; rfl
  cases hs : s.feedAnswers.rxStream with
  | nil =>
    rw [rxPoll_unfed hs, rxPoll_unfed (stream.trans hs)]
    exact (h.update (·.feedAnswers.endInit) (fun _ => rfl) rfl (Nat.le_refl _)).notReady
  | cons a as =>
    cases a with
    | packet p =>
      rw [rxPoll_fed_packet hs, rxPoll_fed_packet (stream.trans hs)]
      exact (h.takeAnswer as).exec _
    | notReady =>
      rw [rxPoll_fed_notReady hs, rxPoll_fed_notReady (stream.trans hs)]
      exact (h.takeAnswer as).notReady

/-! ### The other operations -/

theorem sameExposed.sendNext {s t : State} (h : sameExposed s t)
    (hp : s.txPayRef = .rxBuf → s.txLen ≤ s.rxLen) : sameExposed s.sendNext t.sendNext := by
  have packet := h.nextTxPacket hp
  obtain ⟨m, rfl, hm⟩ := sameExposed_iff.mp h
  refine sameExposed_iff.mpr ⟨m, ?_, by rw [State.sendNext_frame]; exact hm⟩
  unfold State.sendNext
  rw [packet, apply_ite (State.withBuf · m)]
  rfl

theorem sameExposed.txStep {s t : State} (h : sameExposed s t)
    (hp : s.txState = .sending → s.txPayRef = .rxBuf → s.txLen ≤ s.rxLen) :
    SameOutcome (txStep s) (txStep t) := by
  exact .guarded (by rw [h.1]; rfl) fun he =>
    h.sendNext (hp (by simpa [State.txStepEnabled] using he))

/-- A discarded message leaves the state (R103, R114). -/
theorem State.dispatchResult_raised {s : State} {c : Condition}
    (h : route s.cfg.ident s.cmdTable s.rxPayload = .raised c) : s.dispatchResult = s := by
  unfold State.dispatchResult
  rw [h]
  rcases route_raised h with rfl | rfl <;> rfl

theorem State.dispatchResult_invoked {s : State} {c : Call}
    (h : route s.cfg.ident s.cmdTable s.rxPayload = .invoked c) :
    s.dispatchResult = s.invoke c := by
  unfold State.dispatchResult
  rw [h]

/-- DISPATCH reads the payload, which is exposed (R103). -/
theorem sameExposed.dispatchResult {s t : State} (h : sameExposed s t) :
    sameExposed s.dispatchResult t.dispatchResult := by
  have cfg : t.cfg = s.cfg := by rw [h.1]
  have table : t.cmdTable = s.cmdTable := by rw [h.1]
  have routing : route t.cfg.ident t.cmdTable t.rxPayload =
      route s.cfg.ident s.cmdTable s.rxPayload := by rw [cfg, table, h.rxPayload]
  cases hs : route s.cfg.ident s.cmdTable s.rxPayload with
  | raised c =>
    rw [State.dispatchResult_raised hs, State.dispatchResult_raised (routing.trans hs)]
    exact h
  | invoked c =>
    rw [State.dispatchResult_invoked hs, State.dispatchResult_invoked (routing.trans hs)]
    exact h.update (·.invoke c) (fun _ => rfl) rfl (Nat.le_refl _)

theorem sameExposed.registerCommand {s t : State} (h : sameExposed s t) (k : Byte)
    (cb : Callback) : sameExposed (s.registerCommand k cb) (t.registerCommand k cb) := by
  refine h.update (·.registerCommand k cb) (fun m => ?_)
    (by rw [State.registerCommand_frame]) (by rw [State.registerCommand_frame])
  unfold State.registerCommand
  rw [apply_ite (State.withBuf · m)]
  rfl

/-- R28: RESET draws a fresh buffer, and its new length hides every byte. -/
theorem sameExposed.resetBlock {s t : State} (h : sameExposed s t) :
    sameExposed s.resetBlock t.resetBlock := by
  have same : t.resetBlock = s.resetBlock := by rw [h.1]; rfl
  rw [same]
  exact .refl _

/-- Every requested operation, a send reading no more of the buffer than the result holds. -/
theorem sameExposed.perform {s t : State} (h : sameExposed s t)
    (hp : s.txState = .sending → s.txPayRef = .rxBuf → s.txLen ≤ s.rxLen) (r : Request) :
    SameOutcome (perform r s) (perform r t) := by
  cases r with
  | rxPoll => exact h.rxPoll
  | rxRelease => exact .guarded (by rw [h.1]; rfl) fun _ => h.setRxState .idle
  | txStart cable len ref =>
    exact .guarded (by rw [h.1]; rfl) fun _ =>
      h.update (·.beginSend cable len ref) (fun _ => rfl) rfl (Nat.le_refl _)
  | txStep => exact h.txStep hp
  | reset => exact .next h.resetBlock
  | register k cb => exact .guarded (by rw [h.1]; rfl) fun _ => h.registerCommand k cb
  | dispatch => exact .guarded (by rw [h.1]; rfl) fun _ => h.dispatchResult
  | payWrite i b => exact .next (h.update (·.writePay i b) (fun _ => rfl) rfl (Nat.le_refl _))

/-- What the block does by itself. -/
theorem sameExposed.goOn {s t : State} (h : sameExposed s t)
    (hp : s.txState = .sending → s.txPayRef = .rxBuf → s.txLen ≤ s.rxLen) :
    SameOutcome (goOn s) (goOn t) := by
  have rx := h.rxState
  have tx := h.txState
  cases ht : s.txState with
  | sending =>
    rw [goOn_sending ht, goOn_sending (tx.trans ht)]
    exact h.txStep hp
  | idle =>
    rw [ht] at tx
    cases hr : s.rxState with
    | idle =>
      rw [goOn_polling ht (.inl hr), goOn_polling tx (.inl (rx.trans hr))]
      exact h.rxPoll
    | accumulating =>
      rw [goOn_polling ht (.inr hr), goOn_polling tx (.inr (rx.trans hr))]
      exact h.rxPoll
    | done =>
      rw [goOn_held ht (.inl hr), goOn_held tx (.inl (rx.trans hr))]
      exact .refused _
    | timedOut =>
      rw [goOn_held ht (.inr hr), goOn_held tx (.inr (rx.trans hr))]
      exact .refused _

theorem sameExposed.step {s t : State} (h : sameExposed s t)
    (hp : s.txState = .sending → s.txPayRef = .rxBuf → s.txLen ≤ s.rxLen) :
    SameOutcome (step s) (step t) := by
  have requests : t.feedRequests.requests = s.feedRequests.requests := by rw [h.1]; rfl
  have taken (rs : List Request) :
      sameExposed (s.feedRequests.setRequests rs) (t.feedRequests.setRequests rs) :=
    h.update (·.feedRequests.setRequests rs) (fun _ => rfl) rfl (Nat.le_refl _)
  cases hq : s.feedRequests.requests with
  | nil =>
    rw [step_goOn hq, step_goOn (requests.trans hq)]
    exact (h.update State.feedRequests (fun _ => rfl) rfl (Nat.le_refl _)).goOn
      (by simpa using hp)
  | cons r rs =>
    rw [step_fed hq, step_fed (requests.trans hq)]
    exact (taken rs).perform (by simpa using hp) r

/-- Settles O44: the step's square commutes, read off for a next state and for a refusal. -/
theorem hiddenBufferBytesNeverMatter : Obligations.HiddenBufferBytesNeverMatter := by
  intro s t h hp
  have same := h.step hp
  generalize step s = x at same ⊢
  generalize step t = y at same ⊢
  cases same with
  | next h =>
    refine ⟨fun s' hs => ?_, fun why hw => ?_⟩
    · cases hs
      exact ⟨_, rfl, h⟩
    · cases hw
  | refused why =>
    refine ⟨fun s' hs => ?_, fun _ hw => hw⟩
    cases hs

end Sys2Proof.Machine
end

section
/-!
PROOFS. The memories (20_memory.md): a packet is four bytes (R32), the one write of the buffer
(R39), what a packet answer leaves unchanged (R35, R36), that a result stands until a poll
(R35, R80, R132), and that the transport's answers are taken one by one (R38, R42).
-/
namespace Sys2Proof.Machine

/-! ## Packets of four bytes and the append -/

/-- Settles O5: a list of length four is the decoder's own pattern, and any list its fallback
branch takes has another length. -/
theorem exactlyFourBytesDecode : Obligations.ExactlyFourBytesDecode := by
  refine fun bs => ⟨fun four => ?_, fun other => ?_⟩
  · obtain ⟨b0, b1, b2, b3, rfl⟩ := List.length_eq_four.mp four
    exact ⟨_, rfl⟩
  · unfold decodeBytes
    split
    · exact absurd rfl other
    · rfl

/-- Settles O7: with room the append is a store, without it is the entry of Buffer overflow. -/
theorem appendStoresOrFlags : Obligations.AppendStoresOrFlags := by
  refine fun s b => ⟨fun room => ?_, fun full => ?_⟩
  · rw [State.append_room s b room]
    exact ⟨rfl, KMap.read_write s.rxBuf s.rxLen b⟩
  · rw [State.append_full s b full, State.raise_bufferOverflow]
    cases s.rxOverflow <;> simp

/-! ## What a packet answer leaves unchanged -/

/-- Settles O16: of the ways a packet is taken, the three that append keep the rest
by `State.appendAll_frame`; the others are updates of the fields listed. -/
theorem packetFrame : Obligations.PacketFrame := by
  intro i s t h
  have taken := exec_taken i s
  rw [h] at taken
  cases taken with
  | start | more | clean => rw [State.appendAll_frame]; rfl
  | pass | malformed => rfl

/-! ## The result stands until the next poll -/

/-- A packet is taken only in Idle or Accumulating, with the Fragmenter idle (R70). -/
theorem exec_enabled {i : Instr} {s t : State} (h : exec i s = .next t) :
    (s.rxState = .idle ∨ s.rxState = .accumulating) ∧ s.txState = .idle := by
  have taken := exec_taken i s
  rw [h] at taken
  cases taken with
  | start _ _ _ _ _ hr ht | pass _ hr ht => exact ⟨.inl hr, ht⟩
  | more _ hr ht | clean _ hr ht | malformed _ _ hr ht => exact ⟨.inr hr, ht⟩

/-- A poll answers a next state only where it is enabled, whatever the answer (R70). -/
theorem Performed.poll_enabled {s t : State} (h : Performed .rxPoll s t) :
    (s.rxState = .idle ∨ s.rxState = .accumulating) ∧ s.txState = .idle := by
  cases h with
  | packet _ h => simpa using exec_enabled h
  | quiet hr ht => exact ⟨.inl hr, ht⟩
  | count hr ht | expire hr ht => exact ⟨.inr hr, ht⟩

/-- `t` holds the result of `s`: the buffer, the length and both flags. -/
def SameResult (s t : State) : Prop :=
  t.rxBuf = s.rxBuf ∧ t.rxLen = s.rxLen ∧ t.rxOverflow = s.rxOverflow ∧
    t.rxMalformed = s.rxMalformed

/-- No operation but a poll and RESET touches the result. -/
theorem Performed.sameResult {r : Request} {s t : State} (h : Performed r s t)
    (hpoll : r ≠ .rxPoll) (hreset : r ≠ .reset) : SameResult s t := by
  cases h with
  | packet | quiet | count | expire => exact absurd rfl hpoll
  | reset => exact absurd rfl hreset
  | release | start | payWrite => exact ⟨rfl, rfl, rfl, rfl⟩
  | send => rw [State.sendNext_frame]; exact ⟨rfl, rfl, rfl, rfl⟩
  | register => rw [State.registerCommand_frame]; exact ⟨rfl, rfl, rfl, rfl⟩
  | dispatch => rw [State.dispatchResult_frame]; exact ⟨rfl, rfl, rfl, rfl⟩

/-- Settles O28: the step's operation is no poll, since where a poll is enabled the one premise
left is that another request is next. -/
theorem resultStableUntilNextPoll : Obligations.ResultStableUntilNextPoll := by
  intro s t h hreset held
  have otherRequest (hr : s.rxState = .idle ∨ s.rxState = .accumulating)
      (ht : s.txState = .idle) : ∃ r rs, s.feedRequests.requests = r :: rs ∧ r ≠ .rxPoll := by
    rcases hr with hr | hr <;> simpa [hr, ht] using held
  rcases step_cases h with ⟨r, rs, hq, hp⟩ | ⟨_, _, hp⟩ | ⟨hq, ht, hr, _⟩
  · have notPoll : r ≠ .rxPoll := by
      rintro rfl
      obtain ⟨hr, ht⟩ := hp.poll_enabled
      simpa [hq] using otherRequest hr ht
    exact hp.sameResult notPoll (by simpa [hq] using hreset)
  · exact hp.sameResult (by simp) (by simp)
  · simpa [hq] using otherRequest hr ht

/-! ## Each answer of the transport is taken once -/

/-- A poll takes the next answer to come and leaves the others. -/
theorem Performed.takes_answer {s t : State} (h : Performed .rxPoll s t) :
    t.rxStream = s.feedAnswers.rxStream.tail ∧
      t.answersAfter = s.feedAnswers.answersAfter := by
  cases h with
  | packet hs h => rw [packetFrame _ _ _ h, hs]; exact ⟨rfl, rfl⟩
  | quiet | count | expire => exact ⟨rfl, rfl⟩

/-- No other operation takes one, RESET among them (R38). -/
theorem Performed.leaves_answers {r : Request} {s t : State} (h : Performed r s t)
    (hpoll : r ≠ .rxPoll) : t.rxStream = s.rxStream ∧ t.answersAfter = s.answersAfter := by
  cases h with
  | packet | quiet | count | expire => exact absurd rfl hpoll
  | release | start | reset | payWrite => exact ⟨rfl, rfl⟩
  | send => rw [State.sendNext_frame]; exact ⟨rfl, rfl⟩
  | register => rw [State.registerCommand_frame]; exact ⟨rfl, rfl⟩
  | dispatch => rw [State.dispatchResult_frame]; exact ⟨rfl, rfl⟩

/-- Settles O29: each operation a step can come to is a poll or is none, and the premise of the
other clause then fails. -/
theorem eachAnswerConsumedOnce : Obligations.EachAnswerConsumedOnce := by
  intro s t h
  rcases step_cases h with ⟨r, rs, hq, hp⟩ | ⟨hq, ht, hp⟩ | ⟨hq, ht, _, hp⟩
  · by_cases hr : r = .rxPoll
    · subst hr
      exact ⟨fun _ => hp.takes_answer, by simp [hq]⟩
    · exact ⟨by simp [hq, hr], fun _ => hp.leaves_answers hr⟩
  · exact ⟨by simp [hq, ht], fun _ => hp.leaves_answers (by simp)⟩
  · exact ⟨fun _ => hp.takes_answer, by simp [hq, ht]⟩

end Sys2Proof.Machine
end

section
/-!
PROOFS. The encoding (30_encoding.md): DECODE and ENCODE undo each other on events (R62),
classification by code index undoes an instruction's event (R55), and so the decoder and the
encoder undo each other on packets and on bytes.
-/
namespace Sys2Proof

/-! ## Events and packets -/

/-- R62: ENCODE of an event is read back by DECODE. -/
@[simp] theorem decodeEvent_encodeEvent (ev : Event) : decodeEvent (encodeEvent ev) = ev := by
  simp [decodeEvent, encodeEvent, encodePacket]

/-- R62: DECODE of a packet is written back by ENCODE, R47's nibbles being the whole header. -/
@[simp] theorem encodeEvent_decodeEvent (p : Packet) : encodeEvent (decodeEvent p) = p := by
  simp [decodeEvent, encodeEvent, encodePacket]

/-! ## Instructions and packets -/

@[simp] theorem decode_encode (i : Instr) : decode (encode i) = i := by
  rw [decode, encode, decodeEvent_encodeEvent, event_classify]

@[simp] theorem encode_decode (p : Packet) : encode (decode p) = p := by
  rw [encode, decode, classify_event, encodeEvent_decodeEvent]

/-! ## Instructions and bytes -/

@[simp] theorem decodeBytes_bytes (p : Packet) : decodeBytes p.bytes = .ok (decode p) := rfl

/-- R32: the only lists that decode are those of a packet's four bytes. -/
theorem decodeBytes_eq_ok_iff {bs : List Byte} {i : Instr} :
    decodeBytes bs = .ok i ↔ ∃ p : Packet, p.bytes = bs ∧ decode p = i := by
  constructor
  · intro h
    unfold decodeBytes at h
    split at h
    · cases h
      exact ⟨_, rfl, rfl⟩
    · cases h
  · rintro ⟨p, rfl, rfl⟩
    exact decodeBytes_bytes p

theorem decodeBytes_encodeBytes (i : Instr) : decodeBytes (encodeBytes i) = .ok i := by
  rw [encodeBytes, decodeBytes_bytes, decode_encode]

theorem encodeBytes_of_decodeBytes {bs : List Byte} {i : Instr} (h : decodeBytes bs = .ok i) :
    encodeBytes i = bs := by
  obtain ⟨p, rfl, rfl⟩ := decodeBytes_eq_ok_iff.mp h
  rw [encodeBytes, encode_decode]

/-! ## The statements -/

/-- Settles O2: the two round trips on packets, and from them the two on bytes. -/
theorem instrEncodeDecode : Obligations.InstrEncodeDecode :=
  ⟨decode_encode, encode_decode, decodeBytes_encodeBytes, fun _ _ => encodeBytes_of_decodeBytes⟩

/-- Settles O3: each list is the bytes its instruction is written as. -/
theorem specWordsDecode : Obligations.SpecWordsDecode :=
  ⟨decodeBytes_encodeBytes (.sc 0#4 0xF0#8 0x1B#8 0x01#8),
    decodeBytes_encodeBytes (.e3 3#4 0xAA#8 0xBB#8 0xF7#8),
    decodeBytes_encodeBytes (.e2 2#4 0x13#8 0xF7#8 0x00#8),
    decodeBytes_encodeBytes (.e1 15#4 0xF7#8 0x00#8 0x00#8),
    decodeBytes_encodeBytes (.ns9 0#4 0x90#8 0x3C#8 0x7F#8),
    decodeBytes_encodeBytes (.ns0 0#4 0x00#8 0x00#8 0x00#8),
    decodeBytes_encodeBytes (.nsF 15#4 0xFF#8 0xFF#8 0xFF#8)⟩

/-- Settles O4: each packet is what the kind of its code index is written as, and decoding undoes
the encoding of every kind. -/
theorem codeIndexSelectsKind : Obligations.CodeIndexSelectsKind := fun c d0 d1 d2 =>
  ⟨decode_encode (.ns0 c d0 d1 d2), decode_encode (.ns1 c d0 d1 d2),
    decode_encode (.ns2 c d0 d1 d2), decode_encode (.ns3 c d0 d1 d2),
    decode_encode (.sc c d0 d1 d2), decode_encode (.e1 c d0 d1 d2),
    decode_encode (.e2 c d0 d1 d2), decode_encode (.e3 c d0 d1 d2),
    decode_encode (.ns8 c d0 d1 d2), decode_encode (.ns9 c d0 d1 d2),
    decode_encode (.nsA c d0 d1 d2), decode_encode (.nsB c d0 d1 d2),
    decode_encode (.nsC c d0 d1 d2), decode_encode (.nsD c d0 d1 d2),
    decode_encode (.nsE c d0 d1 d2), decode_encode (.nsF c d0 d1 d2)⟩

end Sys2Proof
end

section
/-!
PROOFS. The Packet Codec (40_packet_codec.md): DECODE and ENCODE are inverse bijections (R62),
and ENCODE of plain numbers answers exactly where they fit their fields (R61, U5).
-/
namespace Sys2Proof

/-! ## DECODE is a bijection -/

/-- R62: DECODE has ENCODE as its left inverse. -/
theorem decodeEvent_injective : Function.Injective decodeEvent :=
  Function.LeftInverse.injective encodeEvent_decodeEvent

/-- R62: DECODE has ENCODE as its right inverse. -/
theorem decodeEvent_surjective : Function.Surjective decodeEvent :=
  Function.RightInverse.surjective decodeEvent_encodeEvent

/-- R62 with the fields written apart, in the order of R61's operands. -/
@[simp] theorem decodeEvent_encodePacket (cin cable : Nibble) (b0 b1 b2 : Byte) :
    decodeEvent (encodePacket cin cable b0 b1 b2) = ⟨cable, cin, b0, b1, b2⟩ :=
  decodeEvent_encodeEvent ⟨cable, cin, b0, b1, b2⟩

/-- Settles O1: the two round trips, and from them that DECODE is injective and surjective. -/
theorem codecRoundTrip : Obligations.CodecRoundTrip :=
  ⟨encodeEvent_decodeEvent, decodeEvent_encodePacket, fun _ _ same => decodeEvent_injective same,
    decodeEvent_surjective⟩

/-! ## ENCODE of plain numbers -/

/-- R61: the arguments are well formed when each fits its field. -/
theorem EncodeArgs.wf_iff (a : EncodeArgs) :
    a.wf = true ↔ a.cin < 16 ∧ a.cable < 16 ∧ a.b0 < 256 ∧ a.b1 < 256 ∧ a.b2 < 256 := by
  simp [EncodeArgs.wf, and_assoc]

/-- U5: ENCODE of plain numbers answers nothing exactly where some argument is too wide. -/
theorem encodeArgs?_eq_none_iff (a : EncodeArgs) : encodeArgs? a = none ↔ ¬ a.wf = true := by
  simp [encodeArgs?]

/-- R61: well-formed arguments are encoded as the fields they are the numbers of. -/
theorem encodeArgs?_of_wf {a : EncodeArgs} (h : a.wf = true) :
    encodeArgs? a = some (encodePacket (BitVec.ofNat 4 a.cin) (BitVec.ofNat 4 a.cable)
      (BitVec.ofNat 8 a.b0) (BitVec.ofNat 8 a.b1) (BitVec.ofNat 8 a.b2)) :=
  if_pos h

/-- Settles O6: the refusal is the failed width check; past the check DECODE gives the fields
back, and a number that fits its field is the field's value. -/
theorem wideEncodeArgumentsRefused : Obligations.WideEncodeArgumentsRefused := by
  refine fun a => ⟨fun wide => ?_, fun cin cable b0 b1 b2 => ?_⟩
  · rw [encodeArgs?_eq_none_iff, EncodeArgs.wf_iff]
    omega
  · have fits : a.wf = true := a.wf_iff.mpr ⟨cin, cable, b0, b1, b2⟩
    refine ⟨_, encodeArgs?_of_wf fits, ?_⟩
    rw [decodeEvent_encodePacket]
    exact ⟨Nat.mod_eq_of_lt cin, Nat.mod_eq_of_lt cable,
      Nat.mod_eq_of_lt b0, Nat.mod_eq_of_lt b1, Nat.mod_eq_of_lt b2⟩

end Sys2Proof
end

section
/-!
PROOFS. The SysEx Reassembler (41_sysex_reassembler.md). First the facts the proofs share, about
appends, the decoder, enabling and runs; then what each packet kind does (R72 to R76, R81), the
not-ready poll and release (R71, R77, R79), and the runs these make: the timeout (R77), the
endless ones (R82(b), R143), a legal sequence received (R82(d)), and the round trip (R82(f)).
-/
namespace Sys2Proof.Machine

/-! ## What an append leaves, and what it commutes with -/

@[simp] theorem State.appendAll_txState (s : State) (bs : List Byte) :
    (s.appendAll bs).txState = s.txState := by rw [State.appendAll_frame]

@[simp] theorem State.appendAll_rxStream (s : State) (bs : List Byte) :
    (s.appendAll bs).rxStream = s.rxStream := by rw [State.appendAll_frame]

@[simp] theorem State.appendAll_requests (s : State) (bs : List Byte) :
    (s.appendAll bs).requests = s.requests := by rw [State.appendAll_frame]

@[simp] theorem State.appendAll_requestsAfter (s : State) (bs : List Byte) :
    (s.appendAll bs).requestsAfter = s.requestsAfter := by rw [State.appendAll_frame]

@[simp] theorem State.appendAll_rxPolls (s : State) (bs : List Byte) :
    (s.appendAll bs).rxPolls = s.rxPolls := by rw [State.appendAll_frame]

theorem State.appendAll_append (s : State) (as bs : List Byte) :
    s.appendAll (as ++ bs) = (s.appendAll as).appendAll bs := List.foldl_append

/-- An update that keeps what an append reads, and commutes with its two outcomes, commutes with
an append of several bytes. -/
theorem State.appendAll_comm (f : State → State) (room : ∀ s, (f s).hasRoom = s.hasRoom)
    (store : ∀ s b, f (s.storeRx b) = (f s).storeRx b)
    (flag : ∀ s, f (s.raise .bufferOverflow) = (f s).raise .bufferOverflow)
    (s : State) (bs : List Byte) : f (s.appendAll bs) = (f s).appendAll bs := by
  induction bs generalizing s with
  | nil => rfl
  | cons b bs ih =>
    have one : f (s.append b) = (f s).append b := by
      unfold State.append
      rw [apply_ite f, room, store, flag]
    exact (ih (s.append b)).trans (congrArg (State.appendAll · bs) one)

theorem State.appendAll_setRxState (s : State) (bs : List Byte) (v : RxState) :
    (s.appendAll bs).setRxState v = (s.setRxState v).appendAll bs :=
  State.appendAll_comm (State.setRxState · v) (fun _ => rfl) (fun _ _ => rfl)
    (fun s => by rw [State.raise_bufferOverflow, State.raise_bufferOverflow]; rfl) s bs

/-! ### The buffer after an append, cell by cell -/

/-- What cell `a` holds once bytes are stored at `n` and up, `old` being what it held: bytes at
or above `cap` are not stored (R39). -/
def storedFrom (cap a : Nat) (old : Option Byte) : Nat → List Byte → Option Byte
  | _, [] => old
  | n, b :: bs => if a = n ∧ n < cap then some b else storedFrom cap a old (n + 1) bs

theorem storedFrom_eq (cap a : Nat) (old : Option Byte) (n : Nat) (bs : List Byte) :
    storedFrom cap a old n bs =
      if n ≤ a ∧ a < n + bs.length ∧ a < cap then bs[a - n]? else old := by
  induction bs generalizing n with
  | nil => rw [if_neg (by simp; omega), storedFrom]
  | cons b bs ih =>
    rw [storedFrom, ih, List.length_cons]
    by_cases ha : a = n
    · subst ha
      by_cases hc : a < cap <;> simp [hc]
    · by_cases hn : n ≤ a
      · have next : a - n = a - (n + 1) + 1 := by omega
        rw [if_neg fun h => ha h.1, next, List.getElem?_cons_succ]
        exact if_congr (by omega) rfl rfl
      · rw [if_neg fun h => ha h.1, if_neg (by omega), if_neg (by omega)]

theorem Appended.read_stored {s t : State} {bs : List Byte} (h : Appended s t bs) (a : Nat) :
    KMap.read t.rxBuf a = storedFrom s.cfg.cap a (KMap.read s.rxBuf a) s.rxLen bs :=
  (h.read a).trans (storedFrom_eq _ _ _ _ _).symm

/-! ## The decoder by code index (R48) -/

theorem decode_eq_of_event {p : Packet} {i : Instr} (h : decodeEvent p = i.event) :
    decode p = i := by
  rw [decode, h, event_classify]

theorem decode_of_cinSC {p : Packet} (h : lowNibble p.b0 = Config.cinSC) :
    decode p = .sc (highNibble p.b0) p.b1 p.b2 p.b3 :=
  decode_eq_of_event (by rw [decodeEvent, h]; rfl)

/-- A packet continues a message exactly if its code index is that of SC (R48). -/
theorem continues_decode_iff (p : Packet) :
    continues (decode p) = true ↔ lowNibble p.b0 = Config.cinSC := by
  constructor
  · intro h
    have cin : (decode p).event.cin = lowNibble p.b0 := by rw [decode, classify_event]; rfl
    rw [← cin]
    generalize decode p = i at h
    cases i with
    | sc => rfl
    | _ => cases h
  · intro h
    rw [decode_of_cinSC h]
    rfl

/-- A packet of an end code index decodes to that kind (R48). -/
theorem decode_of_isEnd {p : Packet} (h : isEnd p = true) :
    decode p = .e1 (highNibble p.b0) p.b1 p.b2 p.b3 ∨
      decode p = .e2 (highNibble p.b0) p.b1 p.b2 p.b3 ∨
      decode p = .e3 (highNibble p.b0) p.b1 p.b2 p.b3 := by
  have event (c : Nibble) (hc : lowNibble p.b0 = c) :
      decodeEvent p = ⟨highNibble p.b0, c, p.b1, p.b2, p.b3⟩ := by rw [decodeEvent, hc]
  have cin : lowNibble p.b0 = Config.cinE1 ∨ lowNibble p.b0 = Config.cinE2 ∨
      lowNibble p.b0 = Config.cinE3 := by simpa [isEnd, or_assoc] using h
  exact cin.imp (fun hc => decode_eq_of_event (event _ hc))
    (.imp (fun hc => decode_eq_of_event (event _ hc)) fun hc => decode_eq_of_event (event _ hc))

/-- An end packet ends the message with its payload bytes (R50, R73 to R75). -/
theorem isEnd_appends {p : Packet} (h : isEnd p = true) :
    endsMessage (decode p) = true ∧ appendedBytes (decode p) = endPayload p := by
  unfold endPayload
  rcases decode_of_isEnd h with d | d | d <;> rw [d] <;> exact ⟨rfl, rfl⟩

theorem decode_encodePacket (cin cable : Nibble) (b0 b1 b2 : Byte) :
    decode (encodePacket cin cable b0 b1 b2) = classify ⟨cable, cin, b0, b1, b2⟩ := by
  rw [decode, decodeEvent_encodePacket]

/-- R53: the code indices of a legal sequence. -/
theorem LegalSequence.wf_iff (q : LegalSequence) :
    q.wf = true ↔ lowNibble q.first.b0 = Config.cinSC ∧
      (∀ p ∈ q.middle, lowNibble p.b0 = Config.cinSC) ∧ isEnd q.last = true := by
  simp [LegalSequence.wf, isStartOrContinue, and_assoc]

/-! ## Where an operation is enabled, and what is fed -/

theorem State.rxPollEnabled_iff (s : State) :
    s.rxPollEnabled = true ↔
      (s.rxState = .idle ∨ s.rxState = .accumulating) ∧ s.txState = .idle := by
  simp [State.rxPollEnabled]

/-- In Idle what a packet would do in Accumulating does not matter. -/
theorem State.takePacket_congr_idle {s : State} (hr : s.rxState = .idle) (f g g' : State → State) :
    s.takePacket f g = s.takePacket f g' := by
  unfold State.takePacket
  rw [hr]
  cases s.txState <;> rfl

/-- In Accumulating what a packet would do in Idle does not matter. -/
theorem State.takePacket_congr_accumulating {s : State} (hr : s.rxState = .accumulating)
    (f f' g : State → State) : s.takePacket f g = s.takePacket f' g := by
  unfold State.takePacket
  rw [hr]
  cases s.txState <;> rfl

theorem State.rxReleaseEnabled_iff (s : State) :
    s.rxReleaseEnabled = true ↔
      (s.rxState = .done ∨ s.rxState = .timedOut) ∧ s.txState = .idle := by
  simp [State.rxReleaseEnabled, State.rxResultReady]

/-- Answers that repeat come again once none is listed. -/
theorem State.feedAnswers_again {s : State} {again : List Answer} (hs : s.rxStream = [])
    (ha : s.answersAfter = .repeats again) : s.feedAnswers = { s with rxStream := again } := by
  unfold State.feedAnswers
  rw [hs, ha]
  simp [Source.feed, ← ha]

/-- A free answer is drawn once. -/
theorem State.feedAnswers_free {s : State} {n : Nat} (hs : s.rxStream = [])
    (ha : s.answersAfter = .free n) :
    s.feedAnswers = { s with rxStream := drawAnswer n, answersAfter := .free (n + 1) } := by
  unfold State.feedAnswers
  rw [hs, ha]
  rfl

/-- R70: a free answer is a packet or not-ready. -/
theorem drawAnswer_cases (n : Nat) :
    (∃ p, Config.freeAnswer n = some p ∧ drawAnswer n = [.packet p]) ∨
      (Config.freeAnswer n = none ∧ drawAnswer n = [.notReady]) := by
  unfold drawAnswer
  cases Config.freeAnswer n with
  | some p => exact .inl ⟨p, rfl, rfl⟩
  | none => exact .inr ⟨rfl, rfl⟩

/-- A step that leaves the requests and their source leaves the block to itself. -/
theorem State.unasked.of_eq {s t : State} (h : s.unasked) (hl : t.requests = s.requests)
    (ha : t.requestsAfter = s.requestsAfter) : t.unasked :=
  ⟨hl.trans h.1, ha.trans h.2⟩

/-! ## Runs and deliveries -/

/-- A run that goes through, then one step that does. -/
theorem run_snoc {j : Nat} {s t u : State} (h : core.run j s = .next t) (hu : step t = .next u) :
    core.run (j + 1) s = .next u :=
  (run_add 1 h).trans (run_next hu)

theorem deliver_cons_length (g : Nat) (p : Packet) (gs : List (Nat × Packet)) :
    (deliver ((g, p) :: gs)).length = (g + 1) + (deliver gs).length := by
  simp only [deliver, List.length_append, List.length_replicate, List.length_cons]
  omega

/-! ## One packet kind at a time -/

/-- Settles O10: in Idle two bytes are appended from length 0, in Accumulating three from
`rx_len`. -/
theorem startOrContinuePacket : Obligations.StartOrContinuePacket := by
  refine fun cable d0 d1 d2 s ht => ⟨fun hr => ?_, fun hr hl => ?_⟩
  · have appended := State.appendAll_spec [d1, d2] s.startRx (Nat.zero_le _)
    refine ⟨_, exec_start cable d0 d1 d2 hr ht, ?_, appended.read_stored⟩
    rw [appended.eq]
    simp [State.startRx_eq, State.setRxState]
  · have appended := State.appendAll_spec [d0, d1, d2] (s.setRxPolls 0) hl
    refine ⟨_, exec_more cable d0 d1 d2 hr ht, ?_, appended.read_stored⟩
    rw [appended.eq]
    simp [State.setRxPolls]

/-- A clean end in Accumulating (R73 to R75): the packet's bytes are appended, and the message is
discarded if anything overflowed. -/
theorem exec_clean_effect {i : Instr} {s : State} (hi : endsMessage i = true)
    (ht : s.txState = .idle) (hr : s.rxState = .accumulating) (hl : s.rxLen ≤ s.cfg.cap) :
    ∃ t, exec i s = .next t ∧
      t = { s with
        rxState := .done
        rxBuf := t.rxBuf
        rxLen := if s.rxOverflow = true ∨ s.cfg.cap < s.rxLen + (appendedBytes i).length then 0
          else s.rxLen + (appendedBytes i).length
        rxPolls := 0
        rxOverflow := s.rxOverflow || decide (s.cfg.cap < s.rxLen + (appendedBytes i).length)
        rxMalformed := false
        diagOut := s.diagOut ++
          (if s.rxOverflow = false ∧ s.cfg.cap < s.rxLen + (appendedBytes i).length
            then [.overflow] else []) } ∧
      ∀ a, KMap.read t.rxBuf a =
        storedFrom s.cfg.cap a (KMap.read s.rxBuf a) s.rxLen (appendedBytes i) := by
  have appended := State.appendAll_spec (appendedBytes i) (s.setRxPolls 0) hl
  refine ⟨_, exec_clean hi hr ht, ?_, appended.read_stored⟩
  rw [State.endClean_eq, appended.eq]
  by_cases full : s.cfg.cap < s.rxLen + (appendedBytes i).length
  · simp [State.setRxPolls, full]
  · simp [State.setRxPolls, full, Nat.le_of_not_lt full]

/-- Settles O11: passed through in Idle, a clean end with two bytes in Accumulating. -/
theorem endThreeBytesPacket : Obligations.EndThreeBytesPacket := fun _ _ _ _ _ ht =>
  ⟨fun hr => exec_idle rfl hr ht, exec_clean_effect rfl ht⟩

/-- Settles O12: passed through in Idle, a clean end with one byte in Accumulating. -/
theorem endTwoBytesPacket : Obligations.EndTwoBytesPacket := fun _ _ _ _ _ ht =>
  ⟨fun hr => exec_idle rfl hr ht, exec_clean_effect rfl ht⟩

/-- Settles O13: passed through in Idle, a clean end that appends nothing in Accumulating. -/
theorem endOneBytePacket : Obligations.EndOneBytePacket := fun _ _ _ _ _ ht =>
  ⟨fun hr => exec_idle rfl hr ht, fun hr => by
    rw [exec_clean rfl hr ht, State.endClean_eq]
    rfl⟩

/-- Settles O14: none of the twelve kinds continues a message or ends one. -/
theorem nonSysExPacket : Obligations.NonSysExPacket := by
  intro c d0 d1 d2 s ht i hi
  obtain ⟨hc, he⟩ : continues i = false ∧ endsMessage i = false := by
    revert i
    simp only [List.forall_mem_cons]
    simp [continues, endsMessage]
  refine ⟨fun hr => exec_idle hc hr ht, fun hr => ?_⟩
  rw [exec_malformed hc he hr ht, State.raise_malformedContinuation]
  simp

/-- Settles O15: of the ways a packet can be taken only the refusal answers no state, and there
the poll is not enabled. -/
theorem packetTakenIffPollEnabled : Obligations.PacketTakenIffPollEnabled := by
  refine fun i s => ⟨fun enabled => ?_, fun disabled => exec_refused ?_⟩
  · have taken := exec_taken i s
    generalize exec i s = x at taken ⊢
    cases taken with
    | start | pass | more | clean | malformed => exact ⟨_, rfl⟩
    | refused h => rw [(State.rxPollEnabled_iff s).mpr enabled] at h; cases h
  · rwa [← Bool.not_eq_true, State.rxPollEnabled_iff]

/-! ## What is never looked at (R81) -/

/-- Settles O18: the two packets have one effect in the state at hand; they differ, if at all, in
what they would do in the other state. -/
theorem uncheckedFieldsNeverMatter : Obligations.UncheckedFieldsNeverMatter := by
  intro s c c' d0 d1 d2 e0 e1 e2
  refine ⟨fun hr => ?_, fun hr => ⟨rfl, ?_, ?_, ?_, ?_⟩⟩
  · simp only [exec, execSC]
    exact State.takePacket_congr_idle hr _ _ _
  all_goals
    simp only [exec, execE3, execE2, execE1, execNS0, execNSF, State.otherKind]
    exact State.takePacket_congr_accumulating hr _ _ _

/-! ## Polls, the end of a message, release -/

/-- Settles O19: the packet's bytes decode to what the poll runs, whether the poll is requested
or the block's own. -/
theorem stepRunsDecodedPacket : Obligations.StepRunsDecodedPacket := by
  intro s p i as decoded stream
  obtain rfl : decode p = i := by
    rw [decodeBytes_bytes] at decoded
    injection decoded
  refine ⟨fun rs hq => ?_, fun hq ht hr => step_own_packet hq hr ht stream⟩
  rw [step_request hq]
  exact rxPoll_packet stream

/-- Settles O20: the count is compared with the budget, and reaching it is the entry of Timeout. -/
theorem notReadyPoll : Obligations.NotReadyPoll := by
  refine fun s ht => ⟨fun hr => notReady_idle hr ht, fun hr below => ?_, fun hr reached => ?_⟩
  · rw [notReady_accumulating hr ht, if_neg (Nat.not_le_of_lt below)]
    rfl
  · rw [notReady_accumulating hr ht, if_pos reached]
    rfl

/-- Settles O22: what is listed is fed as it stands; else the source is read, a free answer being
one of two kinds. -/
theorem environmentFeeds : Obligations.EnvironmentFeeds := by
  refine fun s => ⟨fun a as hs => State.feedAnswers_listed hs,
    fun again hs ha => State.feedAnswers_again hs ha, fun n hs ha => ?_,
    fun r rs hq => State.feedRequests_listed hq, fun again hq ha => ?_, fun n hq ha => ?_⟩
  · rcases drawAnswer_cases n with ⟨p, drawn, answer⟩ | ⟨drawn, answer⟩
    · exact ⟨.packet p, by rw [State.feedAnswers_free hs ha, answer], .inl ⟨p, drawn, rfl⟩⟩
    · exact ⟨.notReady, by rw [State.feedAnswers_free hs ha, answer], .inr ⟨drawn, rfl⟩⟩
  · unfold State.feedRequests
    rw [hq, ha]
    simp [Source.feed, ← ha]
  · unfold State.feedRequests
    rw [hq, ha]
    rfl

/-- Settles O23: `m` = 1 is the entry of Malformed continuation, `m` = 0 the clean end. -/
theorem endMessageEffect : Obligations.EndMessageEffect := by
  intro s m
  cases m with
  | true =>
    rw [State.endMessage_true, State.raise_malformedContinuation]
    simp
  | false =>
    rw [State.endMessage_false, State.endClean_eq]
    simp

/-- Settles O25: RX_RELEASE has its one effect where it is enabled, and is refused elsewhere. -/
theorem releaseRestoresIdle : Obligations.ReleaseRestoresIdle := by
  refine fun s => ⟨fun enabled => ?_, fun disabled => ?_⟩
  · exact if_pos (s.rxReleaseEnabled_iff.mpr enabled)
  · exact if_neg (s.rxReleaseEnabled_iff.not.mpr disabled)

/-! ## The timeout (R77) -/

/-- The not-ready poll that reaches the budget, as the block's own step. -/
theorem step_own_expire {s : State} {as : List Answer} (hq : s.unasked)
    (hr : s.rxState = .accumulating) (ht : s.txState = .idle)
    (hs : s.rxStream = .notReady :: as) (hp : s.cfg.timeoutBudget ≤ s.rxPolls + 1) :
    step s = .next { s with
      rxLen := 0, rxPolls := 0, rxState := .timedOut, diagOut := s.diagOut ++ [.timeout]
      rxStream := as, initPhase := false } := by
  rw [step_polling hq ht (.inr hr), rxPoll_notReady hs,
    notReady_accumulating (by simpa using hr) (by simpa using ht), if_pos (by simpa using hp),
    State.raise_timeout]
  simp

/-- Settles O45: fewer polls than the budget are a gap the reassembly survives, and the poll after
the gap of one fewer than the budget expires. -/
theorem timeoutAfterExactlyBudget : Obligations.TimeoutAfterExactlyBudget := by
  intro s rest hq hr ht hp positive stream
  have gap (k : Nat) (hk : k < s.cfg.timeoutBudget) : core.run k s = .next { s with
      rxStream := List.replicate (s.cfg.timeoutBudget - k) .notReady ++ rest
      initPhase := if k = 0 then s.initPhase else false
      rxPolls := s.rxPolls + k } := by
    refine run_gap_accumulating k hq hr ht ?_ (by omega)
    rw [stream, ← List.append_assoc, List.replicate_append_replicate, Nat.add_sub_cancel' hk.le]
  refine ⟨fun k hk => ⟨_, gap k hk, hr, rfl⟩, ?_⟩
  obtain ⟨n, hn⟩ : ∃ n, s.cfg.timeoutBudget = n + 1 := ⟨_, (Nat.sub_add_cancel positive).symm⟩
  have before := gap n (by omega)
  rw [hn, Nat.add_sub_cancel_left] at before
  rw [hn]
  exact run_snoc before (step_own_expire hq hr ht rfl (by simp [hn, hp]))

/-! ## SC packets alone (R72, R82(b)) -/

/-- A poll in Accumulating that is answered with an SC packet appends its three bytes. -/
theorem rxPoll_continue {s : State} {p : Packet} {as : List Answer}
    (hr : s.rxState = .accumulating) (ht : s.txState = .idle)
    (hs : s.feedAnswers.rxStream = .packet p :: as) (hp : lowNibble p.b0 = Config.cinSC) :
    rxPoll s = .next
      (((s.feedAnswers.setStream as).endInit.setRxPolls 0).appendAll [p.b1, p.b2, p.b3]) := by
  rw [rxPoll_fed_packet hs, decode_of_cinSC hp]
  exact exec_more _ _ _ _ (by simpa using hr) (by simpa using ht)

/-- The same as the block's own step, the packet being listed. -/
theorem step_own_continue {s : State} {p : Packet} {as : List Answer} (hq : s.unasked)
    (hr : s.rxState = .accumulating) (ht : s.txState = .idle)
    (hs : s.rxStream = .packet p :: as) (hp : lowNibble p.b0 = Config.cinSC) :
    step s = .next
      (((s.setStream as).endInit.setRxPolls 0).appendAll [p.b1, p.b2, p.b3]) := by
  have listed := State.feedAnswers_listed hs
  rw [step_polling hq ht (.inr hr), rxPoll_continue hr ht (listed ▸ hs) hp, listed]

/-- Settles O46: by induction on the packets, each taken by one step that stays in Accumulating. -/
theorem endlessContinuationNeverEnds : Obligations.EndlessContinuationNeverEnds := by
  intro s ps
  induction ps generalizing s with
  | nil => exact fun rest _ hr _ _ stream => ⟨s, run_zero s, hr, stream⟩
  | cons p ps ih =>
    intro rest hq hr ht sc stream
    have taken := step_own_continue (as := ps.map .packet ++ rest) hq hr ht
      (by simpa using stream) (sc p List.mem_cons_self)
    rw [List.length_cons, run_next taken]
    exact ih _ rest (State.unasked.of_eq hq (by simp) (by simp)) (by simpa using hr)
      (by simpa using ht) (fun p' hp' => sc p' (List.mem_cons_of_mem p hp')) (by simp)

/-! ## The two infinite runs (R82(b), R143) -/

/-- The answer is a packet of kind SC. -/
def Answer.IsSC (a : Answer) : Prop := ∃ p, a = .packet p ∧ lowNibble p.b0 = Config.cinSC

/-- The answer is no packet of kind SC. -/
def Answer.NotSC (a : Answer) : Prop := ∀ p, a = .packet p → lowNibble p.b0 ≠ Config.cinSC

/-- A block left to itself, its Fragmenter idle and the answers to come all of one sort, for
ever. -/
structure LeftAlone (P : Answer → Prop) (again : List Answer) (s : State) : Prop where
  unasked : s.unasked
  txIdle : s.txState = .idle
  after : s.answersAfter = .repeats again
  sort : ∀ a ∈ s.rxStream ++ again, P a

namespace LeftAlone

variable {P : Answer → Prop} {again : List Answer} {s t : State}

/-- The answers fed to a poll are of that sort too. -/
theorem fed (h : LeftAlone P again s) : ∀ a ∈ s.feedAnswers.rxStream ++ again, P a := by
  obtain ⟨_, same | ⟨_, same⟩⟩ := State.feedAnswers_repeats h.after
  · rw [same]
    exact h.sort
  · rw [same]
    exact fun a ha => h.sort a (List.mem_append_right _ (by simpa using ha))

/-- Where some answer repeats, a poll is fed. -/
theorem fed_ne_nil (h : LeftAlone P again s) (nonempty : again ≠ []) :
    s.feedAnswers.rxStream ≠ [] := by
  cases hs : s.rxStream with
  | nil => rwa [State.feedAnswers_again hs h.after]
  | cons a as => simp [State.feedAnswers_listed hs, hs]

/-- After a poll that asks for nothing and starts no send the block is left alone still. -/
theorem poll (h : LeftAlone P again s) (hp : Performed .rxPoll s t) (hq : t.unasked)
    (ht : t.txState = .idle) : LeftAlone P again t := by
  obtain ⟨stream, after⟩ := hp.takes_answer
  refine ⟨hq, ht, after.trans (State.feedAnswers_repeats h.after).1, fun a ha => h.fed a ?_⟩
  rw [stream] at ha
  rw [List.mem_append] at ha ⊢
  exact ha.imp_left List.mem_of_mem_tail

end LeftAlone

/-- In Accumulating with SC packets to come for ever, each step takes one. -/
theorem LeftAlone.step_accumulating {again : List Answer} {s : State}
    (h : LeftAlone Answer.IsSC again s) (nonempty : again ≠ []) (hr : s.rxState = .accumulating) :
    ∃ t, step s = .next t ∧ LeftAlone Answer.IsSC again t ∧ t.rxState = .accumulating := by
  obtain ⟨a, as, stream⟩ := List.exists_cons_of_ne_nil (h.fed_ne_nil nonempty)
  obtain ⟨p, rfl, hp⟩ := h.fed a (by simp [stream])
  have taken := rxPoll_continue hr h.txIdle stream hp
  refine ⟨_, (step_polling h.unasked h.txIdle (.inr hr)).trans taken,
    h.poll (rxPoll_performed taken) (State.unasked.of_eq h.unasked (by simp) (by simp)) ?_, ?_⟩
  · simpa using h.txIdle
  · simpa using hr

/-- A poll in Idle that is not answered with an SC packet changes nothing but `evt_out`, the
answer being taken and initialisation over. -/
theorem rxPoll_idle {s : State} (hr : s.rxState = .idle) (ht : s.txState = .idle)
    (other : ∀ p as, s.feedAnswers.rxStream = .packet p :: as → lowNibble p.b0 ≠ Config.cinSC) :
    ∃ es, rxPoll s = .next { s.feedAnswers with
      rxStream := s.feedAnswers.rxStream.tail, initPhase := false, evtOut := es } := by
  cases stream : s.feedAnswers.rxStream with
  | nil =>
    rw [rxPoll_unfed stream, notReady_idle (by simpa using hr) (by simpa using ht)]
    exact ⟨s.evtOut,
      congrArg (fun as => Host.Outcome.next (s.feedAnswers.setStream as).endInit) stream⟩
  | cons a as =>
    cases a with
    | notReady =>
      rw [rxPoll_fed_notReady stream, notReady_idle (by simpa using hr) (by simpa using ht)]
      exact ⟨s.evtOut, rfl⟩
    | packet p =>
      have noSC : continues (decode p) = false := by
        rw [← Bool.not_eq_true, continues_decode_iff]
        exact other p as stream
      rw [rxPoll_fed_packet stream, exec_idle noSC (by simpa using hr) (by simpa using ht)]
      exact ⟨_, rfl⟩

/-- In Idle with no SC packet ever to come, each step is a poll that leaves the block in Idle. -/
theorem LeftAlone.step_idle {again : List Answer} {s : State}
    (h : LeftAlone Answer.NotSC again s) (hr : s.rxState = .idle) :
    ∃ t, step s = .next t ∧ LeftAlone Answer.NotSC again t ∧ t.rxState = .idle := by
  obtain ⟨es, polled⟩ := rxPoll_idle hr h.txIdle fun p as stream =>
    h.fed (.packet p) (by simp [stream]) p rfl
  refine ⟨_, (step_polling h.unasked h.txIdle (.inl hr)).trans polled,
    h.poll (rxPoll_performed polled) (State.unasked.of_eq h.unasked (by simp) (by simp)) ?_, ?_⟩
  · simpa using h.txIdle
  · simpa using hr

/-- Settles O47: each run keeps being possible, by the step lemma of its state. -/
theorem infiniteRunsAdmitted : Obligations.InfiniteRunsAdmitted := by
  refine fun s again hq ht ha => ⟨fun hr nonempty sc k => ?_, fun hr noSC k => ?_⟩
  · obtain ⟨t, run, _, acc⟩ := run_forever
      (fun s => LeftAlone Answer.IsSC again s ∧ s.rxState = .accumulating)
      (fun _ h => h.1.step_accumulating nonempty h.2) k s ⟨⟨hq, ht, ha, sc⟩, hr⟩
    exact ⟨t, run, acc⟩
  · obtain ⟨t, run, _, idle⟩ := run_forever
      (fun s => LeftAlone Answer.NotSC again s ∧ s.rxState = .idle)
      (fun _ h => h.1.step_idle h.2) k s ⟨⟨hq, ht, ha, noSC⟩, hr⟩
    exact ⟨t, run, idle⟩

/-! ## A legal sequence, packet by packet (R53, R82(d))

Between two packets only the stream, the count and the initialisation phase differ from what the
appends alone would give, so the whole message comes to one append of its payload. -/

/-- The block between two packets of a message: `as` is what the transport has left. -/
def State.resumed (s : State) (as : List Answer) : State :=
  { s with rxStream := as, initPhase := false, rxPolls := 0 }

/-- The block once a message's first packet is taken, its two bytes apart (R72). -/
def State.started (s : State) (as : List Answer) : State :=
  { s.resumed as with
    rxState := .accumulating, rxLen := 0, rxOverflow := false, rxMalformed := false }

theorem State.appendAll_resumed (s : State) (bs : List Byte) (as : List Answer) :
    (s.appendAll bs).resumed as = (s.resumed as).appendAll bs :=
  State.appendAll_comm (State.resumed · as) (fun _ => rfl) (fun _ _ => rfl)
    (fun s => by rw [State.raise_bufferOverflow, State.raise_bufferOverflow]; rfl) s bs

/-- A gap and the first packet, in Idle. -/
theorem run_start {g : Nat} {s : State} {p : Packet} {as : List Answer} (hq : s.unasked)
    (hr : s.rxState = .idle) (ht : s.txState = .idle)
    (hs : s.rxStream = List.replicate g .notReady ++ .packet p :: as)
    (hp : lowNibble p.b0 = Config.cinSC) :
    core.run (g + 1) s = .next ((s.started as).appendAll [p.b2, p.b3]) := by
  refine run_snoc (run_gap_idle g hq hr ht hs) ?_
  refine (step_own_packet (by exact hq) (.inl (by exact hr)) (by exact ht) rfl).trans ?_
  rw [decode_of_cinSC hp, exec_start _ _ _ _ (by exact hr) (by exact ht),
    State.appendAll_setRxState]
  rfl

/-- A gap within the budget and a packet, in Accumulating. -/
theorem run_gap_packet {g : Nat} {s t : State} {p : Packet} {as : List Answer} (hq : s.unasked)
    (hr : s.rxState = .accumulating) (ht : s.txState = .idle)
    (hs : s.rxStream = List.replicate g .notReady ++ .packet p :: as)
    (hg : s.rxPolls + g < s.cfg.timeoutBudget)
    (hx : exec (decode p) { s with
      rxStream := as, initPhase := false, rxPolls := s.rxPolls + g } = .next t) :
    core.run (g + 1) s = .next t := by
  refine run_snoc (run_gap_accumulating g hq hr ht hs hg) ?_
  exact (step_own_packet (by exact hq) (.inr (by exact hr)) (by exact ht) rfl).trans hx

/-- The rest of a message, in Accumulating with the count at 0: any number of SC packets and an
end packet, each after a gap within the budget. -/
theorem run_rest (gs : List (Nat × Packet)) {g : Nat} {s : State} {p : Packet}
    {as : List Answer} (hq : s.unasked) (hr : s.rxState = .accumulating) (ht : s.txState = .idle)
    (hp : s.rxPolls = 0) (hs : s.rxStream = deliver (gs ++ [(g, p)]) ++ as)
    (gaps : ∀ x ∈ gs ++ [(g, p)], x.1 < s.cfg.timeoutBudget)
    (sc : ∀ x ∈ gs, lowNibble x.2.b0 = Config.cinSC) (last : isEnd p = true) :
    core.run (deliver (gs ++ [(g, p)])).length s =
      .next ((s.resumed as).appendAll
        (gs.flatMap (fun x => [x.2.b1, x.2.b2, x.2.b3]) ++ endPayload p)).endClean := by
  induction gs generalizing s with
  | nil =>
    have length : (deliver [(g, p)]).length = g + 1 := deliver_cons_length g p []
    obtain ⟨ends, bytes⟩ := isEnd_appends last
    rw [List.nil_append, length]
    refine run_gap_packet hq hr ht (by simpa [deliver] using hs)
      (by simpa [hp] using gaps (g, p) (by simp)) ?_
    rw [exec_clean ends (by exact hr) (by exact ht), bytes]
    rfl
  | cons x gs ih =>
    obtain ⟨k, c⟩ := x
    have taken : core.run (k + 1) s =
        .next ((s.resumed (deliver (gs ++ [(g, p)]) ++ as)).appendAll [c.b1, c.b2, c.b3]) := by
      refine run_gap_packet hq hr ht (by simpa [deliver] using hs)
        (by simpa [hp] using gaps (k, c) (by simp)) ?_
      rw [decode_of_cinSC (sc (k, c) (by simp)), exec_more _ _ _ _ (by exact hr) (by exact ht)]
      rfl
    rw [List.cons_append, deliver_cons_length, run_add _ taken, ih]
    · rw [State.appendAll_resumed, List.flatMap_cons, List.append_assoc,
        State.appendAll_append _ [_, _, _]]
      rfl
    · exact hq.of_eq (by simp [State.resumed]) (by simp [State.resumed])
    · simpa [State.resumed] using hr
    · simpa [State.resumed] using ht
    · simp [State.resumed]
    · simp [State.resumed]
    · exact fun x hx => by simpa [State.resumed] using gaps x (List.mem_cons_of_mem _ hx)
    · exact fun x hx => sc x (List.mem_cons_of_mem _ hx)

/-! ## A legal sequence received (R82(d)) -/

/-- What a whole message of payload `bs` comes to, from Idle: the appends, then the clean end. -/
def State.received (s : State) (as : List Answer) (bs : List Byte) : State :=
  ((s.started as).appendAll bs).endClean

/-- The message's one append, from length 0. -/
theorem State.started_appended (s : State) (as : List Answer) (bs : List Byte) :
    Appended (s.started as) ((s.started as).appendAll bs) bs :=
  State.appendAll_spec bs (s.started as) (Nat.zero_le _)

theorem State.received_rxLen (s : State) (as : List Answer) (bs : List Byte) :
    (s.received as bs).rxLen = if s.cfg.cap < bs.length then 0 else bs.length := by
  rw [State.received, State.endClean_eq, (s.started_appended as bs).eq]
  by_cases h : s.cfg.cap < bs.length
  · simp [State.started, State.resumed, h]
  · simp [State.started, State.resumed, h, Nat.le_of_not_lt h]

theorem State.received_rxOverflow (s : State) (as : List Answer) (bs : List Byte) :
    (s.received as bs).rxOverflow = decide (s.cfg.cap < bs.length) := by
  rw [State.received, State.endClean_eq, (s.started_appended as bs).eq]
  simp [State.started, State.resumed]

theorem State.received_diagOut (s : State) (as : List Answer) (bs : List Byte) :
    (s.received as bs).diagOut =
      s.diagOut ++ if s.cfg.cap < bs.length then [.overflow] else [] := by
  rw [State.received, State.endClean_eq, (s.started_appended as bs).eq]
  simp [State.started, State.resumed]

/-- R39: the payload's bytes that fit are in the buffer, the first at index 0. -/
theorem State.received_read (s : State) (as : List Answer) (bs : List Byte) {i : Nat}
    (hc : i < s.cfg.cap) (hi : i < bs.length) :
    KMap.read (s.received as bs).rxBuf i = bs[i]? := by
  have stored := (s.started_appended as bs).read i
  rw [if_pos ⟨Nat.zero_le _, by simpa [State.started, State.resumed] using hi, hc⟩] at stored
  exact stored

/-- A buffer that holds the bytes of `bs` below the length exposes `bs` (R26). -/
theorem State.rxPayload_eq {s : State} {bs : List Byte} (hl : s.rxLen = bs.length)
    (hb : ∀ i, i < bs.length → KMap.read s.rxBuf i = bs[i]?) : s.rxPayload = bs := by
  unfold State.rxPayload
  rw [hl]
  refine List.ext_getElem (by simp) fun i _ hi => ?_
  rw [List.getElem_map, List.getElem_range, State.rxByte, hb i hi, List.getElem?_eq_getElem hi,
    Option.getD_some]

/-- An Idle block to which a legal sequence is delivered receives its payload. -/
theorem run_legalSequence {s : State} {q : LegalSequence} {gs : List (Nat × Packet)}
    {rest : List Answer} (wf : q.wf = true) (hq : s.unasked) (hr : s.rxState = .idle)
    (ht : s.txState = .idle) (packets : gs.map Prod.snd = q.packets)
    (gaps : ∀ g ∈ gs.tail, g.1 < s.cfg.timeoutBudget) (hs : s.rxStream = deliver gs ++ rest) :
    core.run (deliver gs).length s = .next (s.received rest q.payload) := by
  obtain ⟨firstSC, middleSC, lastEnd⟩ := q.wf_iff.mp wf
  obtain ⟨first, middle, last⟩ := q
  obtain ⟨⟨g0, first⟩, gs, rfl, rfl, packets⟩ := List.map_eq_cons_iff.mp packets
  obtain ⟨gm, gl, rfl, rfl, packets⟩ := List.map_eq_append_iff.mp packets
  obtain ⟨⟨g, last⟩, rfl, rfl⟩ := List.map_eq_singleton_iff.mp packets
  have begun := run_start hq hr ht (g := g0) (as := deliver (gm ++ [(g, last)]) ++ rest)
    (by simpa [deliver] using hs) firstSC
  rw [deliver_cons_length, run_add _ begun, run_rest gm (as := rest)]
  · rw [State.appendAll_resumed, ← State.appendAll_append, State.received,
      LegalSequence.payload, List.flatMap_map, List.append_assoc]
    rfl
  · exact hq.of_eq (by simp [State.started, State.resumed]) (by simp [State.started, State.resumed])
  · simp [State.started]
  · simpa [State.started, State.resumed] using ht
  · simp [State.started, State.resumed]
  · simp [State.started, State.resumed]
  · simpa [State.started, State.resumed] using gaps
  · exact fun x hx => middleSC x.2 (List.mem_map_of_mem hx)
  · exact lastEnd

/-- Settles O48: the run comes to `State.received`, whose fields are read off its one append. -/
theorem legalSequenceReceived : Obligations.LegalSequenceReceived := by
  intro s q gs rest wf hq hr ht packets gaps hs
  refine ⟨s.received rest q.payload, run_legalSequence wf hq hr ht packets gaps hs, ?_,
    fun fits => ⟨?_, ?_, ?_, ?_⟩, fun long => ⟨?_, ?_, ?_, ?_⟩⟩
  · rw [State.received, State.appendAll_frame]
    rfl
  · rw [State.received_rxLen, if_neg (Nat.not_lt_of_le fits)]
  · exact State.rxPayload_eq (by rw [State.received_rxLen, if_neg (Nat.not_lt_of_le fits)])
      fun i hi => State.received_read s rest _ (Nat.lt_of_lt_of_le hi fits) hi
  · rw [State.received_rxOverflow, decide_eq_false (Nat.not_lt_of_le fits)]
  · rw [State.received_diagOut, if_neg (Nat.not_lt_of_le fits), List.append_nil]
  · rw [State.received_rxLen, if_pos long]
  · rw [State.received_rxOverflow, decide_eq_true long]
  · rw [State.received_diagOut, if_pos long]
  · exact fun i hi => State.received_read s rest _ hi (Nat.lt_trans hi long)

/-! ## What a send emits (R92, R94)

Only the cursor and `tx_out` move during a send, so its packets are those of the state at its
start with the cursor at 0, 3, 6 and so on. -/

/-- The packet TX_STEP emits with the cursor at `c`. -/
def State.txPacketAt (s : State) (c : Nat) : Packet := { s with txCursor := c }.nextTxPacket

/-- The packets of the first `k` steps of a send. -/
def State.txPackets (s : State) (k : Nat) : List Packet :=
  (List.range k).map fun j => s.txPacketAt (3 * j)

/-- A send after `k` SC packets. -/
def State.sending (s : State) (k : Nat) : State :=
  { s with txState := .sending, txCursor := 3 * k, txOut := s.txOut ++ s.txPackets k }

theorem State.txPackets_succ (s : State) (k : Nat) :
    s.txPackets (k + 1) = s.txPackets k ++ [s.txPacketAt (3 * k)] := by
  simp [State.txPackets, List.range_succ]

theorem State.sending_zero {s : State} (ht : s.txState = .sending) (hc : s.txCursor = 0) :
    s.sending 0 = s := by
  obtain ⟨⟩ := s
  cases ht
  cases hc
  simp [State.sending, State.txPackets]

theorem State.sending_succ (s : State) (k : Nat) :
    ((s.sending k).emitTx (s.txPacketAt (3 * k))).moveTx (3 * k + 3) .sending =
      s.sending (k + 1) := by
  simp [State.sending, State.emitTx, State.moveTx, State.txPackets_succ, Nat.mul_succ]

theorem State.sending_nextTxPacket (s : State) (k : Nat) :
    (s.sending k).nextTxPacket = s.txPacketAt (3 * k) := rfl

theorem State.sendNext_more {s : State} (h : 3 < s.txRemaining) :
    s.sendNext = (s.emitTx s.nextTxPacket).moveTx (s.txCursor + 3) .sending := if_pos h

theorem State.sendNext_last {s : State} (h : s.txRemaining ≤ 3) :
    s.sendNext = (s.emitTx s.nextTxPacket).moveTx (s.txLen + 2) .idle :=
  if_neg (Nat.not_lt_of_le h)

/-- A send goes on while bytes remain: after `k` steps `k` packets are out. -/
theorem run_sending {s : State} (hq : s.unasked) (ht : s.txState = .sending)
    (hc : s.txCursor = 0) (k : Nat) (hk : 3 * k < s.txLen + 2) :
    core.run k s = .next (s.sending k) := by
  induction k with
  | zero => rw [run_zero, State.sending_zero ht hc]
  | succ k ih =>
    refine run_snoc (ih (by omega)) ?_
    have more : 3 < (s.sending k).txRemaining := show 3 < s.txLen + 2 - 3 * k by omega
    rw [step_sending (by exact hq) rfl, State.sendNext_more more, State.sending_nextTxPacket]
    exact congrArg _ (s.sending_succ k)

/-- The last step of a send: one packet more, and the Fragmenter is idle. -/
theorem run_send {s : State} (hq : s.unasked) (ht : s.txState = .sending)
    (hc : s.txCursor = 0) {k : Nat} (hk : 3 * k < s.txLen + 2) (last : s.txLen + 2 ≤ 3 * k + 3) :
    core.run (k + 1) s = .next { s with
      txState := .idle, txCursor := s.txLen + 2, txOut := s.txOut ++ s.txPackets (k + 1) } := by
  refine run_snoc (run_sending hq ht hc k hk) ?_
  have rest : (s.sending k).txRemaining ≤ 3 := show s.txLen + 2 - 3 * k ≤ 3 by omega
  rw [step_sending (by exact hq) rfl, State.sendNext_last rest,
    State.sending_nextTxPacket, State.txPackets_succ, ← List.append_assoc]
  rfl

/-! ### The bytes the packets carry -/

/-- The packet at cursor `c`, by the bytes that remain (R92). -/
theorem State.txPacketAt_cases (s : State) {c : Nat} (hc : c < s.txLen + 2) :
    (3 < s.txLen + 2 - c ∧ s.txPacketAt c = encodePacket Config.cinSC s.txCable (s.seqByte c)
      (s.seqByte (c + 1)) (s.seqByte (c + 2))) ∨
    (s.txLen + 2 - c = 3 ∧ s.txPacketAt c = encodePacket Config.cinE3 s.txCable (s.seqByte c)
      (s.seqByte (c + 1)) (s.seqByte (c + 2))) ∨
    (s.txLen + 2 - c = 2 ∧ s.txPacketAt c = encodePacket Config.cinE2 s.txCable (s.seqByte c)
      (s.seqByte (c + 1)) Config.pad) ∨
    (s.txLen + 2 - c = 1 ∧ s.txPacketAt c = encodePacket Config.cinE1 s.txCable (s.seqByte c)
      Config.pad Config.pad) := by
  have packet : s.txPacketAt c =
      if 3 < s.txLen + 2 - c then
        encodePacket Config.cinSC s.txCable (s.seqByte c) (s.seqByte (c + 1)) (s.seqByte (c + 2))
      else if s.txLen + 2 - c = 3 then
        encodePacket Config.cinE3 s.txCable (s.seqByte c) (s.seqByte (c + 1)) (s.seqByte (c + 2))
      else if s.txLen + 2 - c = 2 then
        encodePacket Config.cinE2 s.txCable (s.seqByte c) (s.seqByte (c + 1)) Config.pad
      else encodePacket Config.cinE1 s.txCable (s.seqByte c) Config.pad Config.pad := rfl
  rw [packet]
  obtain r | r | r | r : 3 < s.txLen + 2 - c ∨ s.txLen + 2 - c = 3 ∨ s.txLen + 2 - c = 2 ∨
      s.txLen + 2 - c = 1 := by omega
  · exact .inl ⟨r, if_pos r⟩
  · exact .inr (.inl ⟨r, by rw [r]; rfl⟩)
  · exact .inr (.inr (.inl ⟨r, by rw [r]; rfl⟩))
  · exact .inr (.inr (.inr ⟨r, by rw [r]; rfl⟩))

/-- While more than three bytes remain the packet is an SC. -/
theorem State.txPacketAt_isStartOrContinue {s : State} {c : Nat} (hc : c + 3 < s.txLen + 2) :
    isStartOrContinue (s.txPacketAt c) = true := by
  rcases s.txPacketAt_cases (c := c) (by omega) with ⟨_, h⟩ | ⟨h, _⟩ | ⟨h, _⟩ | ⟨h, _⟩
  · rw [h]
    simp [isStartOrContinue, encodePacket]
  all_goals omega

/-- When at most three bytes remain it is an end packet. -/
theorem State.txPacketAt_isEnd {s : State} {c : Nat} (hc : c < s.txLen + 2)
    (last : s.txLen + 2 ≤ c + 3) : isEnd (s.txPacketAt c) = true := by
  rcases s.txPacketAt_cases hc with ⟨h, _⟩ | ⟨_, h⟩ | ⟨_, h⟩ | ⟨_, h⟩
  · omega
  all_goals
    rw [h]
    simp [isEnd, encodePacket]

/-- The packet carries the next three bytes of the logical sequence, or what remains. -/
theorem State.messageBytes_txPacketAt {s : State} {c : Nat} (hc : c < s.txLen + 2) :
    messageBytes (decode (s.txPacketAt c)) =
      (List.range' c (min 3 (s.txLen + 2 - c))).map s.seqByte := by
  rcases s.txPacketAt_cases hc with ⟨r, h⟩ | ⟨r, h⟩ | ⟨r, h⟩ | ⟨r, h⟩
  · rw [h, decode_encodePacket, Nat.min_eq_left r.le]
    rfl
  all_goals
    rw [h, decode_encodePacket, r]
    rfl

/-- The first `k` packets carry the first `3 * k` bytes, or all of them. -/
theorem State.messageBytes_txPackets (s : State) (k : Nat) (hk : 3 * k < s.txLen + 5) :
    (s.txPackets k).flatMap (fun p => messageBytes (decode p)) =
      (List.range (min (3 * k) (s.txLen + 2))).map s.seqByte := by
  induction k with
  | zero => simp [State.txPackets]
  | succ k ih =>
    have inside : 3 * k < s.txLen + 2 := by omega
    have split : min (3 * (k + 1)) (s.txLen + 2) = 3 * k + min 3 (s.txLen + 2 - 3 * k) := by omega
    rw [State.txPackets_succ, List.flatMap_append, ih (by omega), List.flatMap_singleton,
      State.messageBytes_txPacketAt inside, split, Nat.min_eq_left inside.le, ← List.map_append,
      List.range_eq_range', List.range_eq_range', ← List.range'_append]
    simp

/-! ## The round trip (R82(f)) -/

/-- The message bytes of a legal sequence are its payload between the two markers' slots. -/
theorem LegalSequence.payload_eq {q : LegalSequence} (wf : q.wf = true) :
    q.payload = (q.packets.flatMap (fun p => messageBytes (decode p))).tail.dropLast := by
  obtain ⟨firstSC, middleSC, lastEnd⟩ := q.wf_iff.mp wf
  obtain ⟨first, middle, last⟩ := q
  have three {p : Packet} (h : lowNibble p.b0 = Config.cinSC) :
      messageBytes (decode p) = [p.b1, p.b2, p.b3] := by
    rw [decode_of_cinSC h]
    rfl
  have marker : messageBytes (decode last) ≠ [] := by
    rcases decode_of_isEnd lastEnd with d | d | d <;> rw [d] <;> exact List.cons_ne_nil _ _
  rw [LegalSequence.packets, List.flatMap_cons, three firstSC, List.flatMap_append,
    List.flatMap_congr fun p hp => three (middleSC p hp), List.flatMap_singleton]
  show _ = ([first.b2, first.b3] ++ (_ ++ messageBytes (decode last))).dropLast
  rw [← List.append_assoc, List.dropLast_append_of_ne_nil marker]
  rfl

/-- R91: the logical sequence is the payload between the markers. -/
theorem State.logicalSequence_eq (s : State) :
    s.logicalSequence =
      Config.sysexStart :: ((List.range s.txLen).map s.payByte ++ [Config.sysexEnd]) := by
  have inner : ∀ i ∈ List.range s.txLen, (s.seqByte ∘ Nat.succ) i = s.payByte i := fun i hi => by
    simp [State.seqByte, Nat.succ_le_of_lt (List.mem_range.mp hi)]
  have outer : (s.seqByte ∘ Nat.succ) s.txLen = Config.sysexEnd := by simp [State.seqByte]
  rw [State.logicalSequence, List.range_succ_eq_map, List.range_succ, List.map_cons, List.map_map,
    List.map_append, List.map_congr_left inner, List.map_singleton, outer]
  rfl

/-- The packets of a whole send of two bytes or more are a legal sequence (R53, R94), and its
payload is what was sent. -/
theorem State.txPackets_legal (s : State) {k : Nat} (more : 1 ≤ k) (hk : 3 * k < s.txLen + 2)
    (last : s.txLen + 2 ≤ 3 * k + 3) :
    ∃ q : LegalSequence, q.wf = true ∧ q.packets = s.txPackets (k + 1) ∧
      q.payload = (List.range s.txLen).map s.payByte := by
  have sc : ∀ p ∈ s.txPackets k, isStartOrContinue p = true := by
    intro p hp
    obtain ⟨j, hj, rfl⟩ := List.mem_map.mp hp
    rw [List.mem_range] at hj
    exact State.txPacketAt_isStartOrContinue (by omega)
  obtain ⟨first, middle, front⟩ : ∃ first middle, s.txPackets k = first :: middle := by
    refine List.exists_cons_of_ne_nil fun empty => ?_
    have length : (s.txPackets k).length = k := by simp [State.txPackets]
    rw [empty, List.length_nil] at length
    omega
  have packets : (LegalSequence.mk first middle (s.txPacketAt (3 * k))).packets =
      s.txPackets (k + 1) := by
    rw [State.txPackets_succ, front]
    rfl
  have wf : (LegalSequence.mk first middle (s.txPacketAt (3 * k))).wf = true := by
    rw [front] at sc
    simpa [LegalSequence.wf, State.txPacketAt_isEnd hk last] using sc
  refine ⟨_, wf, packets, ?_⟩
  rw [LegalSequence.payload_eq wf, packets, State.messageBytes_txPackets s (k + 1) (by omega),
    Nat.min_eq_right (by omega)]
  change s.logicalSequence.tail.dropLast = _
  rw [State.logicalSequence_eq, List.tail_cons, List.dropLast_concat]

/-- Settles O49: the packets sent are a legal sequence with the payload sent, which a block with
room for it receives. -/
theorem fragmentThenReassemble : Obligations.FragmentThenReassemble := by
  intro s hq ht hc long
  obtain ⟨k, hk⟩ : ∃ k, (s.txLen + 4) / 3 = k + 1 := ⟨(s.txLen + 1) / 3, by omega⟩
  obtain ⟨q, wf, packets, payload⟩ :=
    s.txPackets_legal (k := k) (by omega) (by omega) (by omega)
  rw [hk]
  refine ⟨_, s.txPackets (k + 1), run_send hq ht hc (by omega) (by omega), rfl, ?_⟩
  intro r gs rest rq rr rt fits sent gaps stream
  have length : q.payload.length = s.txLen := by simp [payload]
  obtain ⟨t, run, final, received, _⟩ := legalSequenceReceived r q gs rest wf rq rr rt
    (sent.trans packets.symm) gaps stream
  obtain ⟨len, bytes, overflow, _⟩ := received (length ▸ fits)
  exact ⟨t, run, by rw [final], len.trans length, bytes.trans payload, overflow, by rw [final]⟩

end Sys2Proof.Machine
end

section
/-!
PROOFS. The SysEx Fragmenter (42_sysex_fragmenter.md): what TX_START latches and what is then the
message (R90, R91), what one TX_STEP emits and which requests a send leaves enabled (R92), and the
whole of a send (R93, R94).
-/
namespace Sys2Proof.Machine

/-! ## The start of a send (R90) -/

theorem State.txStartEnabled_iff (s : State) :
    s.txStartEnabled = true ↔ s.txState = .idle ∧ s.rxState ≠ .accumulating := by
  simp [State.txStartEnabled]

/-- Settles O32: TX_START is enabled exactly where neither a send nor a reassembly is going on. -/
theorem startSendLatches : Obligations.StartSendLatches := by
  refine fun s cable len ref => ⟨fun ht hr => ?_, fun busy => ?_⟩
  · rw [txStart, s.txStartEnabled_iff.mpr ⟨ht, hr⟩, State.guarded_true]
    rfl
  · have disabled : s.txStartEnabled = false := by
      rw [← Bool.not_eq_true, s.txStartEnabled_iff]
      rintro ⟨ht, hr⟩
      exact busy.elim (by simp [ht]) hr
    rw [txStart, disabled, State.guarded_false]

/-- A send of the reassembly buffer reads the buffer (R90). -/
theorem State.beginSend_rxBuf_payByte (s : State) (cable : Nibble) (len : Nat) :
    (s.beginSend cable len .rxBuf).payByte = s.rxByte := rfl

/-- Settles O9: the logical sequence is the payload between the markers, and the payload memory
of this send is the buffer. -/
theorem echoReadsTheResult : Obligations.EchoReadsTheResult := by
  intro s cable
  rw [State.logicalSequence_eq, State.beginSend_rxBuf_payByte]
  rfl

/-! ## One step of a send (R92) -/

theorem txStep_sending {s : State} (ht : s.txState = .sending) : txStep s = .next s.sendNext := by
  rw [txStep, show s.txStepEnabled = true by simp [State.txStepEnabled, ht], State.guarded_true]

theorem txStep_idle {s : State} (ht : s.txState = .idle) :
    txStep s = .refused .txStepNotEnabled := by
  rw [txStep, show s.txStepEnabled = false by simp [State.txStepEnabled, ht], State.guarded_false]

theorem State.txPacketAt_txCursor (s : State) : s.txPacketAt s.txCursor = s.nextTxPacket := rfl

/-- After an SC the send goes on three bytes further. -/
theorem txStep_more {s : State} {p : Packet} (ht : s.txState = .sending)
    (more : 3 < s.txRemaining) (hp : s.txPacketAt s.txCursor = p) :
    txStep s = .next { s with txOut := s.txOut ++ [p], txCursor := s.txCursor + 3 } := by
  rw [txStep_sending ht, State.sendNext_more more, ← State.txPacketAt_txCursor, hp]
  simp [State.emitTx, State.moveTx, ht]

/-- After an end packet the Fragmenter is idle, the cursor at the end. -/
theorem txStep_last {s : State} {p : Packet} (ht : s.txState = .sending)
    (last : s.txRemaining ≤ 3) (hp : s.txPacketAt s.txCursor = p) :
    txStep s = .next { s with
      txOut := s.txOut ++ [p], txCursor := s.txLen + 2, txState := .idle } := by
  rw [txStep_sending ht, State.sendNext_last last, ← State.txPacketAt_txCursor, hp]
  rfl

/-- During a send only TX_STEP, RESET and the requester's write of its own memory answer a next
state. -/
theorem Performed.of_sending {r : Request} {s t : State} (h : Performed r s t)
    (ht : s.txState = .sending) : r = .txStep ∨ r = .reset ∨ ∃ i b, r = .payWrite i b := by
  have busy : s.txState ≠ .idle := by simp [ht]
  cases r with
  | txStep => exact .inl rfl
  | reset => exact .inr (.inl rfl)
  | payWrite i b => exact .inr (.inr ⟨i, b, rfl⟩)
  | rxPoll => exact absurd h.poll_enabled.2 busy
  | rxRelease | txStart | register | dispatch =>
    cases h
    contradiction

/-- There is no fault (R52, R60): an operation answers a next state or is refused. -/
theorem perform_next_or_refused (r : Request) (s : State) :
    (∃ t, perform r s = .next t) ∨ ∃ why, perform r s = .refused why := by
  cases perform r s with
  | next t => exact .inl ⟨t, rfl⟩
  | fault f => cases f
  | refused why => exact .inr ⟨why, rfl⟩

/-- Settles O33: the bytes that remain say which packet goes out; and whatever answers a next
state during a send is one of the three requests exempt. -/
theorem sendStepEmitsPacket : Obligations.SendStepEmitsPacket := by
  refine fun s => ⟨fun ht inside => ?_, fun ht r notStep notReset notWrite => ?_, txStep_idle⟩
  · rcases s.txPacketAt_cases inside with ⟨r, hp⟩ | ⟨r, hp⟩ | ⟨r, hp⟩ | ⟨r, hp⟩
    · exact ⟨fun _ => txStep_more ht r hp, fun _ => by omega, fun _ => by omega, fun _ => by omega⟩
    · exact ⟨fun _ => by omega, fun _ => txStep_last ht r.le hp, fun _ => by omega,
        fun _ => by omega⟩
    · exact ⟨fun _ => by omega, fun _ => by omega,
        fun _ => txStep_last ht (r.le.trans (by decide)) hp, fun _ => by omega⟩
    · exact ⟨fun _ => by omega, fun _ => by omega, fun _ => by omega,
        fun _ => txStep_last ht (r.le.trans (by decide)) hp⟩
  · refine (perform_next_or_refused r s).resolve_left fun ⟨t, next⟩ => ?_
    obtain h | h | ⟨i, b, h⟩ := (perform_performed next).of_sending ht
    · exact notStep h
    · exact notReset h
    · exact notWrite i b h

/-! ## A whole send (R93, R94) -/

theorem State.mem_txPackets {s : State} {k : Nat} {p : Packet} :
    p ∈ s.txPackets k ↔ ∃ j, j < k ∧ s.txPacketAt (3 * j) = p := by
  simp [State.txPackets]

@[simp] theorem State.length_txPackets (s : State) (k : Nat) : (s.txPackets k).length = k := by
  simp [State.txPackets]

/-- Each packet carries the cable latched (R92). -/
theorem State.highNibble_txPacketAt (s : State) {c : Nat} (hc : c < s.txLen + 2) :
    highNibble (s.txPacketAt c).b0 = s.txCable := by
  rcases s.txPacketAt_cases hc with ⟨_, h⟩ | ⟨_, h⟩ | ⟨_, h⟩ | ⟨_, h⟩ <;> rw [h] <;>
    exact highNibble_append _ _

/-- The kind of the packet that ends a send, by the bytes left for it (R93). -/
theorem State.lowNibble_txPacketAt_last (s : State) {k : Nat} (hk : 3 * k < s.txLen + 2)
    (last : s.txLen + 2 ≤ 3 * k + 3) :
    lowNibble (s.txPacketAt (3 * k)).b0 =
      if s.txLen % 3 = 0 then Config.cinE2 else if s.txLen % 3 = 1 then Config.cinE3
      else Config.cinE1 := by
  rcases s.txPacketAt_cases hk with ⟨r, _⟩ | ⟨r, h⟩ | ⟨r, h⟩ | ⟨r, h⟩
  · omega
  · rw [h, if_neg (by omega), if_pos (by omega)]
    exact lowNibble_append _ _
  · rw [h, if_pos (by omega)]
    exact lowNibble_append _ _
  · rw [h, if_neg (by omega), if_neg (by omega)]
    exact lowNibble_append _ _

/-- The packets of a whole send carry the whole logical sequence (R91). -/
theorem State.messageBytes_txPackets_all (s : State) {k : Nat} (hk : 3 * k < s.txLen + 5)
    (all : s.txLen + 2 ≤ 3 * k) :
    (s.txPackets k).flatMap (fun p => messageBytes (decode p)) = s.logicalSequence := by
  rw [State.messageBytes_txPackets s k hk, Nat.min_eq_right all, State.logicalSequence]

/-- Settles O34: a send of `k + 1` packets is `k` steps that each emit an SC, then one that emits
the end packet. -/
theorem messageIsSentWhole : Obligations.MessageIsSentWhole := by
  intro s hq ht hc
  obtain ⟨k, hk⟩ : ∃ k, (s.txLen + 4) / 3 = k + 1 := ⟨(s.txLen + 1) / 3, by omega⟩
  have inside : 3 * k < s.txLen + 2 := by omega
  have last : s.txLen + 2 ≤ 3 * k + 3 := by omega
  rw [hk]
  refine ⟨fun j hj => ⟨s.sending j, run_sending hq ht hc j (by omega), rfl⟩,
    _, s.txPackets k, s.txPacketAt (3 * k), run_send hq ht hc inside last, ?_⟩
  rw [← State.txPackets_succ]
  refine ⟨rfl, s.length_txPackets _, fun p hp => ?_, fun p hp => ?_,
    s.lowNibble_txPacketAt_last inside last, s.messageBytes_txPackets_all (by omega) (by omega)⟩
  · obtain ⟨j, hj, rfl⟩ := State.mem_txPackets.mp hp
    exact beq_iff_eq.mp (s.txPacketAt_isStartOrContinue (c := 3 * j) (by omega))
  · obtain ⟨j, hj, rfl⟩ := State.mem_txPackets.mp hp
    exact s.highNibble_txPacketAt (by omega)

end Sys2Proof.Machine
end

section
/-!
PROOFS. The Command Dispatcher (43_command_dispatcher.md): REGISTER and its enabling (R102), that
the command table is fixed once device initialisation is over (R101, R131), how a payload is
routed (R103), and DISPATCH as a step (R100, R104).
-/
namespace Sys2Proof.Machine

/-! ## REGISTER (R102) -/

/-- A listed code, or a new one with a slot left. -/
theorem State.registerCommand_ok {s : State} {k : Byte}
    (h : (KMap.read s.cmdTable k.toNat).isSome ∨ s.cmdTable.length < s.cfg.cmdMax)
    (cb : Callback) : s.registerCommand k cb = (s.setCommand k cb).returnReg .ok := by
  unfold State.registerCommand
  exact if_pos (by simpa using h)

/-- A new code and no slot left: the registration is rejected. -/
theorem State.registerCommand_full {s : State} {k : Byte}
    (unlisted : KMap.read s.cmdTable k.toNat = none) (full : s.cfg.cmdMax ≤ s.cmdTable.length)
    (cb : Callback) : s.registerCommand k cb = s.returnReg .regFull := by
  unfold State.registerCommand
  exact if_neg (by simpa [unlisted] using full)

/-- Settles O37: a registration that is taken is one write of the table, and command bytes that
differ are different keys; one that is rejected returns REG_FULL alone. -/
theorem registrationLastWinsOrFull : Obligations.RegistrationLastWinsOrFull := by
  refine fun s k cb => ⟨fun room => ?_, fun unlisted full => ?_⟩
  · rw [State.registerCommand_ok room]
    refine ⟨rfl, fun x => ?_⟩
    simpa [BitVec.toNat_inj] using KMap.read_write s.cmdTable k.toNat cb x.toNat
  · rw [State.registerCommand_full unlisted full]
    rfl

theorem State.registerEnabled_iff (s : State) :
    s.registerEnabled = true ↔
      s.initPhase = true ∧ s.txState = .idle ∧ s.rxState ≠ .accumulating := by
  simp [State.registerEnabled, and_assoc]

theorem register_enabled {s : State} (hi : s.initPhase = true) (ht : s.txState = .idle)
    (hr : s.rxState ≠ .accumulating) (k : Byte) (cb : Callback) :
    register k cb s = .next (s.registerCommand k cb) := by
  rw [register, s.registerEnabled_iff.mpr ⟨hi, ht, hr⟩, State.guarded_true]

theorem register_refused {s : State}
    (h : s.initPhase = false ∨ s.txState = .sending ∨ s.rxState = .accumulating) (k : Byte)
    (cb : Callback) : register k cb s = .refused .registerNotEnabled := by
  have disabled : s.registerEnabled = false := by
    rw [← Bool.not_eq_true, s.registerEnabled_iff]
    rintro ⟨hi, ht, hr⟩
    simp [hi, ht, hr] at h
  rw [register, disabled, State.guarded_false]

/-- Settles O38: the step performs the request, and feeding the requests changes none of the
fields that enable REGISTER. -/
theorem registerOnlyDuringInit : Obligations.RegisterOnlyDuringInit := by
  refine fun s k cb rs hq => ⟨fun hi ht hr => ?_, fun h => ?_⟩
  · rw [step_fed hq]
    exact register_enabled (by simpa using hi) (by simpa using ht) (by simpa using hr) k cb
  · rw [step_fed hq]
    exact register_refused (by simpa using h) k cb

/-! ## The command table after device initialisation (R101, R131) -/

/-- After device initialisation REGISTER is not enabled, a poll ends device initialisation anyway
(log 10), and every other operation but RESET leaves the table and the phase. -/
theorem Performed.table_fixed {r : Request} {s t : State} (h : Performed r s t)
    (hreset : r ≠ .reset) (initOver : s.initPhase = false) :
    t.cmdTable = s.cmdTable ∧ t.initPhase = false := by
  cases h with
  | packet _ h => rw [packetFrame _ _ _ h]; simp
  | quiet | count => simp
  | expire => simp [State.raise_timeout]
  | release | start | payWrite => exact ⟨rfl, initOver⟩
  | send => rw [State.sendNext_frame]; exact ⟨rfl, initOver⟩
  | dispatch => rw [State.dispatchResult_frame]; exact ⟨rfl, initOver⟩
  | reset => exact absurd rfl hreset
  | register hi => simp [initOver] at hi

/-- Settles O39: the operation the step performs is no RESET, and starts with the phase and the
table of `s`. -/
theorem commandTableFixedAfterInit : Obligations.CommandTableFixedAfterInit := by
  intro s t h hreset initOver
  obtain ⟨r, rs, hp, hq⟩ := step_performs h
  exact hp.table_fixed (ne_reset_of_performs hq hreset) initOver

/-! ## How a payload is routed (R103) -/

theorem route_unaddressed {ident : Byte} {payload : List Byte}
    (h : payload.length < 2 ∨ payload.head? ≠ some ident) (table : KMap Callback) :
    route ident table payload = .raised .unaddressedMessage := by
  match payload with
  | [] => rfl
  | [_] => rfl
  | b :: k :: rest =>
    have other : b ≠ ident := by simpa using h
    exact if_neg other

theorem route_unknown {table : KMap Callback} {k : Byte} (h : KMap.read table k.toNat = none)
    (ident : Byte) (args : List Byte) :
    route ident table (ident :: k :: args) = .raised .unknownCommand := by
  simp [route, h]

theorem route_registered {table : KMap Callback} {k : Byte} {cb : Callback}
    (h : KMap.read table k.toNat = some cb) (ident : Byte) (args : List Byte) :
    route ident table (ident :: k :: args) = .invoked ⟨cb, args⟩ := by
  simp [route, h]

/-- A payload is too short or not addressed, or it starts with the identifier and a command byte. -/
theorem unaddressed_or_addressed (ident : Byte) (payload : List Byte) :
    (payload.length < 2 ∨ payload.head? ≠ some ident) ∨
      ∃ k args, payload = ident :: k :: args := by
  match payload with
  | [] => simp
  | [_] => simp
  | b :: k :: rest =>
    by_cases hb : b = ident
    · exact .inr ⟨k, rest, by rw [hb]⟩
    · exact .inl (.inr (by simpa using hb))

/-- The three things DISPATCH can come to, each with the payloads it comes from. -/
theorem route_cases (ident : Byte) (table : KMap Callback) (payload : List Byte) :
    ((payload.length < 2 ∨ payload.head? ≠ some ident) ∧
      route ident table payload = .raised .unaddressedMessage) ∨
    (∃ k args, payload = ident :: k :: args ∧ KMap.read table k.toNat = none ∧
      route ident table payload = .raised .unknownCommand) ∨
    (∃ k args cb, payload = ident :: k :: args ∧ KMap.read table k.toNat = some cb ∧
      route ident table payload = .invoked ⟨cb, args⟩) := by
  rcases unaddressed_or_addressed ident payload with h | ⟨k, args, rfl⟩
  · exact .inl ⟨h, route_unaddressed h table⟩
  · cases hk : KMap.read table k.toNat with
    | none => exact .inr (.inl ⟨k, args, rfl, hk, route_unknown hk ident args⟩)
    | some cb => exact .inr (.inr ⟨k, args, cb, rfl, hk, route_registered hk ident args⟩)

/-- Settles O40: each payload routes as its case of `route_cases` says, and the three routings
differ. -/
theorem dispatchIffAddressedAndRegistered : Obligations.DispatchIffAddressedAndRegistered := by
  intro ident table payload
  refine ⟨fun cb args => ⟨fun h => ?_, ?_⟩, ⟨fun h => ?_, fun h => route_unaddressed h table⟩,
    ⟨fun h => ?_, ?_⟩⟩
  · rcases route_cases ident table payload with
      ⟨_, e⟩ | ⟨_, _, _, _, e⟩ | ⟨k, args', cb', hp, hk, e⟩ <;> cases e.symm.trans h
    exact ⟨k, hp, hk⟩
  · rintro ⟨k, rfl, hk⟩
    exact route_registered hk ident args
  · rcases route_cases ident table payload with
      ⟨short, e⟩ | ⟨_, _, _, _, e⟩ | ⟨_, _, _, _, _, e⟩ <;> cases e.symm.trans h
    exact short
  · rcases route_cases ident table payload with
      ⟨_, e⟩ | ⟨k, args, hp, hk, e⟩ | ⟨_, _, _, _, _, e⟩ <;> cases e.symm.trans h
    exact ⟨k, args, hp, hk⟩
  · rintro ⟨k, args, rfl, hk⟩
    exact route_unknown hk ident args

/-! ## DISPATCH as a step (R100, R104) -/

/-- The invocations a routing comes to: one or none. -/
def Routing.calls : Routing → List Call
  | .raised _ => []
  | .invoked c => [c]

theorem Routing.calls_eq_singleton_iff (x : Routing) (c : Call) :
    x.calls = [c] ↔ x = .invoked c := by
  cases x <;> simp [Routing.calls]

theorem Routing.length_calls_le (x : Routing) : x.calls.length ≤ 1 := by
  cases x <;> simp [Routing.calls]

/-- DISPATCH appends the invocations its routing comes to, and does nothing else (R103). -/
theorem State.dispatchResult_eq (s : State) :
    s.dispatchResult = { s with
      callOut := s.callOut ++ (route s.cfg.ident s.cmdTable s.rxPayload).calls } := by
  cases h : route s.cfg.ident s.cmdTable s.rxPayload with
  | raised c => simp [State.dispatchResult_raised h, Routing.calls]
  | invoked c => rw [State.dispatchResult_invoked h]; rfl

theorem State.dispatchEnabled_iff (s : State) :
    s.dispatchEnabled = true ↔ s.rxState = .done ∧ s.txState = .idle := by
  simp [State.dispatchEnabled]

theorem dispatch_enabled {s : State} (hr : s.rxState = .done) (ht : s.txState = .idle) :
    dispatch s = .next s.dispatchResult := by
  rw [dispatch, s.dispatchEnabled_iff.mpr ⟨hr, ht⟩, State.guarded_true]

theorem dispatch_refused {s : State} (h : s.rxState ≠ .done ∨ s.txState = .sending) :
    dispatch s = .refused .dispatchNotEnabled := by
  have disabled : s.dispatchEnabled = false := by
    rw [← Bool.not_eq_true, s.dispatchEnabled_iff]
    rintro ⟨hr, ht⟩
    simp [hr, ht] at h
  rw [dispatch, disabled, State.guarded_false]

/-- A discarded message exposes no byte: a nonzero length means both flags are clear (R26). -/
theorem Sound.rxPayload_discarded {s : State} (h : Sound s) (hr : s.rxState ≠ .accumulating)
    (discarded : s.rxOverflow = true ∨ s.rxMalformed = true) : s.rxPayload = [] := by
  have empty : s.rxLen = 0 := by
    by_contra nonempty
    obtain ⟨noOverflow, notMalformed⟩ := h.lenMeansClean hr (Nat.pos_of_ne_zero nonempty)
    simp [noOverflow, notMalformed] at discarded
  simp [State.rxPayload, empty]

/-- Settles O41: the invocations are those of the routing, and the empty payload of a discarded
message routes to none. -/
theorem discardedMessageNeverDispatched : Obligations.DiscardedMessageNeverDispatched := by
  refine fun s rs hq => ⟨fun hr ht => ?_, fun h => ?_⟩
  · refine ⟨(route s.cfg.ident s.cmdTable s.rxPayload).calls, ?_,
      fun c => Routing.calls_eq_singleton_iff _ c, Routing.length_calls_le _,
      fun sound discarded => ?_⟩
    · calc step s = dispatch (s.feedRequests.setRequests rs) := step_fed hq
        _ = .next (s.feedRequests.setRequests rs).dispatchResult :=
          dispatch_enabled (by simpa using hr) (by simpa using ht)
        _ = _ := by rw [State.dispatchResult_eq]; rfl
    · rw [sound.rxPayload_discarded (by simp [hr]) discarded]
      rfl
  · rw [step_fed hq]
    exact dispatch_refused (by simpa using h)

end Sys2Proof.Machine
end

section
/-!
PROOFS. The conditions of the block (60_exceptions.md): which of them one packet can raise
(R117), and what the entry of each changes (R118).
-/
namespace Sys2Proof.Machine

/-! ## One packet raises at most one condition (R117) -/

/-- Only SC, E2 and E3 append bytes. -/
theorem cin_mem_of_appendedBytes {i : Instr} (h : appendedBytes i ≠ []) :
    i.event.cin ∈ [0x4#4, 0x6#4, 0x7#4] := by
  cases i with
  | sc | e2 | e3 => simp [Instr.event, Config.cinSC, Config.cinE2, Config.cinE3]
  | e1 | ns0 | ns1 | ns2 | ns3 | ns8 | ns9 | nsA | nsB | nsC | nsD | nsE | nsF =>
    exact absurd rfl h

/-- A packet that neither continues a message nor ends one is of none of the four SysEx kinds. -/
theorem cin_notMem_of_otherKind {i : Instr} (hc : continues i = false)
    (he : endsMessage i = false) : i.event.cin ∉ [0x4#4, 0x5#4, 0x6#4, 0x7#4] := by
  cases i with
  | sc => cases hc
  | e1 | e2 | e3 => cases he
  | ns0 | ns1 | ns2 | ns3 | ns8 | ns9 | nsA | nsB | nsC | nsD | nsE | nsF => simp [Instr.event]

/-- The bytes a packet appends in Accumulating give at most one diagnostic, an overflow, and that
only where the kind appends any. -/
theorem State.appendAll_appendedBytes_diagOut (s : State) (i : Instr) :
    (s.appendAll (appendedBytes i)).diagOut = s.diagOut ∨
    ((s.appendAll (appendedBytes i)).diagOut = s.diagOut ++ [.overflow] ∧
      i.event.cin ∈ [0x4#4, 0x6#4, 0x7#4]) := by
  rcases State.appendAll_diag (appendedBytes i) s with ⟨same, _⟩ | ⟨grown, _, _, appends⟩
  · exact .inl same
  · exact .inr ⟨grown, cin_mem_of_appendedBytes appends⟩

/-- Settles O17: an append is all that can overflow, and only a malformed continuation, which
appends nothing, is malformed. -/
theorem atMostOneConditionPerPacket : Obligations.AtMostOneConditionPerPacket := by
  intro i s t h
  have taken := exec_taken i s
  rw [h] at taken
  cases taken with
  | start c d0 d1 d2 hi =>
    rcases State.appendAll_diag [d1, d2] s.startRx with ⟨same, _⟩ | ⟨grown, _⟩
    · exact .inl same
    · exact .inr (.inl ⟨grown, by simp [hi, Instr.event, Config.cinSC]⟩)
  | pass => exact .inl rfl
  | more | clean =>
    exact (State.appendAll_appendedBytes_diagOut (s.setRxPolls 0) i).imp_right .inl
  | malformed hc he => exact .inr (.inr ⟨rfl, cin_notMem_of_otherKind hc he⟩)

/-! ## The entry of each condition (R118) -/

/-- Settles O24: the entries of R118's table, and the ends of an overflowed message, each of which
leaves length 0 and the flag. -/
theorem conditionEntryTable : Obligations.ConditionEntryTable := by
  refine fun s => ⟨s.raise_timeout, s.raise_malformedContinuation, ?_, fun overflowed => ?_⟩
  · rw [State.raise_bufferOverflow]
    cases s.rxOverflow <;> simp
  · rw [State.endMessage_false, State.endClean_eq, State.endMessage_true,
      State.raise_malformedContinuation, State.raise_timeout]
    simp [overflowed]

end Sys2Proof.Machine
end

section
/-!
PROOFS. RESET and the hazards (70_reset_and_hazards.md): RESET from every state (R130), which
requests a busy block refuses (R134), and a payload byte written late, before the TX_STEP that
reads it (R135).
-/
namespace Sys2Proof.Machine

/-! ## RESET (R130) -/

/-- After RESET no cell of the buffer is known: each reads as a byte drawn afresh (R28). -/
@[simp] theorem State.resetBlock_rxByte (s : State) (i : Nat) :
    s.resetBlock.rxByte i = Config.freeRxByte (s.resets + 1) i := rfl

/-- Settles O36: RESET has no enabling condition, and the fields of `State.resetBlock` are the
reset values. -/
theorem resetFromAnyState : Obligations.ResetFromAnyState :=
  fun s => ⟨s.resetBlock, rfl, by simp⟩

/-! ## A busy block (R134) -/

/-- During a reassembly only RX_POLL, RESET and the requester's write of its own memory answer a
next state. -/
theorem Performed.of_accumulating {r : Request} {s t : State} (h : Performed r s t)
    (hr : s.rxState = .accumulating) (ht : s.txState = .idle) :
    r = .rxPoll ∨ r = .reset ∨ ∃ i b, r = .payWrite i b := by
  cases h with
  | packet | quiet | count | expire => exact .inl rfl
  | reset => exact .inr (.inl rfl)
  | payWrite => exact .inr (.inr ⟨_, _, rfl⟩)
  | release held | dispatch held => simp [hr] at held
  | start _ free | register _ _ free => exact absurd hr free
  | send sending => simp [ht] at sending

/-- What cannot be performed is refused, there being no fault (R55). -/
theorem perform_refused {r : Request} {s : State} (h : ∀ t, ¬ Performed r s t) :
    ∃ why, perform r s = .refused why :=
  (perform_next_or_refused r s).resolve_left fun ⟨t, next⟩ => h t (perform_performed next)

/-- Settles O26: feeding the requests keeps the block busy, and what a busy block performs is its
own operation or one of the two requests exempt. -/
theorem busyBlockRefusesOthers : Obligations.BusyBlockRefusesOthers := by
  intro s r rs hq notReset notWrite
  rw [step_fed hq]
  refine ⟨fun hr ht notPoll => perform_refused fun t performed => ?_,
    fun ht notStep => perform_refused fun t performed => ?_⟩
  · obtain h | h | ⟨i, b, h⟩ := performed.of_accumulating (by simpa using hr) (by simpa using ht)
    · exact notPoll h
    · exact notReset h
    · exact notWrite i b h
  · obtain h | h | ⟨i, b, h⟩ := performed.of_sending (by simpa using ht)
    · exact notStep h
    · exact notReset h
    · exact notWrite i b h

/-! ## A late payload write (R135) -/

/-- Where the payload is the requester's own memory, a read gives the byte written there and
elsewhere what it gave (R30, R40). -/
theorem State.writePay_payByte {s : State} (own : s.txPayRef = .own) (i : Nat) (b : Byte)
    (j : Nat) : (s.writePay i b).payByte j = if j = i then b else s.payByte j := by
  simp only [State.payByte, State.writePay_txPayRef, own, State.writePay_txPay, KMap.read_write]
  split <;> rfl

/-- The write of payload byte `i` changes position `i + 1` of the logical sequence, and no other
(R40). -/
theorem State.writePay_seqByte {s : State} (own : s.txPayRef = .own) {i : Nat}
    (hi : i < s.txLen) (b : Byte) (j : Nat) :
    (s.writePay i b).seqByte j = if j = i + 1 then b else s.seqByte j := by
  cases j with
  | zero => rfl
  | succ j =>
    by_cases hj : j = i <;>
      simp [State.seqByte, State.writePay_payByte own, hj, Nat.succ_le_of_lt hi]

/-- Each TX_STEP of a send puts out the packet at the cursor (R92). -/
theorem txStep_emits {s : State} (ht : s.txState = .sending) :
    ∃ t, txStep s = .next t ∧ t.txOut = s.txOut ++ [s.txPacketAt s.txCursor] := by
  refine ⟨s.sendNext, txStep_sending ht, ?_⟩
  by_cases more : 3 < s.txRemaining
  · rw [State.sendNext_more more]; rfl
  · rw [State.sendNext_last (Nat.le_of_not_lt more)]; rfl

/-- The packet at cursor `c` carries position `j` of the logical sequence, if that is one of the
next three, in slot `j - c` (R50, R92). -/
theorem State.messageBytes_txPacketAt_getElem? {s : State} {c j : Nat} (hj : j < s.txLen + 2)
    (reached : c ≤ j) (near : j < c + 3) :
    (messageBytes (decode (s.txPacketAt c)))[j - c]? = some (s.seqByte j) := by
  have slot : j - c < min 3 (s.txLen + 2 - c) := by omega
  rw [State.messageBytes_txPacketAt (by omega), List.getElem?_map, List.getElem?_range' slot]
  simp [Nat.add_sub_cancel' reached]

/-- Settles O8: the logical sequence reads the payload memory on demand, so the next packet
carries what a write left there. -/
theorem latePayloadWriteIsSent : Obligations.LatePayloadWriteIsSent := by
  intro s i b own hi
  have written := State.writePay_seqByte own hi b
  refine ⟨by simp [written], fun j hj => by simp [written, hj], fun ht reached near => ?_⟩
  obtain ⟨t, next, out⟩ := txStep_emits (s := s.writePay i b) ht
  refine ⟨t, _, next, out, ?_⟩
  have carried := State.messageBytes_txPacketAt_getElem? (s := s.writePay i b) (j := i + 1)
    (show i + 1 < s.txLen + 2 by omega) reached near
  simpa [written] using carried

end Sys2Proof.Machine
end
